-- ==== Sys2Proof/Word.lean ====
section
/-! DEFINITION. The word, byte and block types of the core (R7, R9, R15, R16). No computation stands here. -/

namespace Sys2Proof

/-- An 8-bit byte (R9). -/
abbrev Byte := BitVec 8

/-- A 64-bit half-block word; every word of the core is unsigned (R5, R7). -/
abbrev Word := BitVec 64

/-- A 32-bit command or status word (R200). -/
abbrev CmdWord := BitVec 32

/-- A byte string, byte 0 first (R9). -/
abbrev Bytes := List Byte

/-- A 16-byte block, byte 0 first (R5, R26). -/
abbrev Block := Vector Byte 16

/-- A half-block pair `(x, y)`: `x` the left or high word, `y` the right or low word (R18, R26). -/
abbrev Pair := Word × Word

/-- The round-key memory: exactly 68 words of 64 bits (R15, R30, R33). -/
abbrev Schedule := Vector Word 68

end Sys2Proof
end

