-- ==== Sys2Proof/Config.lean ====
section
/-! DEFINITION. What one realisation of the core fixes (R6), and the free values: constants with no body, about which
nothing can be proved (R23, U10). -/

namespace Sys2Proof

/-- How a 16-byte block or key maps to its two words (R6, R26, R27). -/
inductive WordByteOrder where
  | le
  | be
deriving DecidableEq, Repr

/-- What a message length that is not a whole number of blocks does: this spec has one policy, rejection in every mode
(R6, R617, 90_conflicts.md C4). -/
inductive PartialPolicy where
  | reject
deriving DecidableEq, Repr

/-- The parameters R6 names, as one record. `maxMessageBytes` is `none` where the message length is unbounded. LATENCY is
open and no rule depends on it (R912): the model is untimed and has no field for it. -/
structure Params where
  wordByteOrder   : WordByteOrder
  partialPolicy   : PartialPolicy
  maxMessageBytes : Option Nat
deriving DecidableEq, Repr

/-- The values R6 gives: LE, reject, unbounded. The operations take the parameters as arguments, so other values of them
have their meaning too (`initUnder`, `cryptUnder` in Machine/Commands.lean). -/
def Config.params : Params :=
  { wordByteOrder := .le, partialPolicy := .reject, maxMessageBytes := none }

/-- Free value: what register X holds after the `n`-th completed command (R23: unspecified). -/
opaque Config.freeX : Nat → Word

/-- Free value: what register Y holds after the `n`-th completed command (R23). -/
opaque Config.freeY : Nat → Word

/-- Free value: what the round counter RC holds after the `n`-th completed command (R23). -/
opaque Config.freeRC : Nat → BitVec 7

/-- Free value: what the key index KI holds after the `n`-th completed command (R23). -/
opaque Config.freeKI : Nat → BitVec 7

/-- Free value: what the block index BI holds after the `n`-th completed command (R23). -/
opaque Config.freeBI : Nat → Nat

/-- Free value: what a read of the round-key memory at an index above 67 would give. R30 says no such index exists, and no
sequencer run issues one; the 7-bit counters RC and KI could name one (notes/assumptions 8). -/
opaque Config.absentRoundKey : BitVec 7 → Word

end Sys2Proof
end

