-- ==== Sys2Proof/Syntax.lean ====
section
/-! DEFINITION. The instructions of the core: the four commands of spec/opcode_table.json, with their operands as R212
decodes them. -/

namespace Sys2Proof

/-- One constructor per row of the opcode table (R202, R209). -/
inductive Instr where
  /-- INIT (R203, R207, R702): the four fields of the command word as they stand (R214), and the two halves of the
  32-byte payload. Unsupported field values are legal encodings; the command itself answers CONFIG_ERROR. -/
  | init (mode : BitVec 3) (variant : BitVec 4) (keyBytes blockBytes : BitVec 8) (key iv : Bytes)
  /-- ENCRYPT (R208, R703): the payload is the message, of any length. -/
  | encrypt (msg : Bytes)
  /-- DECRYPT (R208, R704): the payload is the message, of any length. -/
  | decrypt (msg : Bytes)
  /-- DISCARD (R208, R705): no operands. -/
  | discard
deriving DecidableEq, Repr

end Sys2Proof
end

