-- ==== Sys2Proof/Machine/State.lean ====
section
/-! DEFINITION. The state of the core as plain data (10_state.md), the reasons a step can stop, and the state after reset
(R24, R901). -/

namespace Sys2Proof.Machine

/-- The five modes of operation (R3, R204). MODE values 5 to 7 are never stored (R14), so they have no constructor. -/
inductive Mode where
  | ecb
  | cbc
  | ctr
  | cfb
  | ofb
deriving DecidableEq, Repr

/-- The cipher variants: only `Simon_128_128` is defined, and the others are never stored (R2, R14, R205). -/
inductive Variant where
  | simon128
deriving DecidableEq, Repr

/-- CFG, the configuration register (R14). -/
structure Cfg where
  variant    : Variant
  mode       : Mode
  keySize    : BitVec 16
  blockSize  : BitVec 16
  roundLimit : BitVec 7
  zSeq       : BitVec 3
deriving DecidableEq, Repr

/-- A context: the triple `(CFG, KS, MS)` that R12 calls the CipherContext. -/
structure Context where
  cfg : Cfg
  ks  : Schedule
  ms  : Block
deriving DecidableEq, Repr

/-- The internal registers (R18 to R21). They hold something only while a command runs; between commands their values are
unspecified (R23), so the model leaves free values in them. -/
structure Internal where
  /-- X, working half-block register (R18). -/
  x  : Word
  /-- Y, working half-block register (R18). -/
  y  : Word
  /-- RC, the round counter (R19). -/
  rc : BitVec 7
  /-- KI, the key-schedule index (R20). -/
  ki : BitVec 7
  /-- BI, the block index within a message (R21). -/
  bi : Nat
deriving DecidableEq, Repr

/-- The result codes of R211. -/
inductive ResultCode where
  | ok
  | configError
  | lengthError
  | notInitialized
  | illegalCommand
deriving DecidableEq, Repr

/-- The core's answer to one command (R200). -/
structure Response where
  sw  : CmdWord
  out : Bytes
deriving DecidableEq, Repr

/-- What the host can do to the core: issue a command on the port (R200), or assert reset (R900). -/
inductive HostEvent where
  | command (cw : CmdWord) (payload : Bytes)
  | reset
deriving DecidableEq, Repr

/-- The core never faults: an error is a result code in STATUS, and nothing traps (R800, R805, R809). No constructor, so no
step can answer a fault. -/
inductive Fault where
deriving DecidableEq, Repr

/-- Why a step is refused. -/
inductive Refusal where
  /-- Raised by an arm of exec for an instruction without a meaning. Every instruction has its meaning here, so nothing
  raises it. Safe: nothing can be proved of a run that holds a refusal. -/
  | notModelled (mnemonic : String)
  /-- Raised by ENCRYPT and DECRYPT for a message of whole blocks longer than the realisation's MAX_MESSAGE_BYTES (R708,
  U12). Safe: R708 gives such a run no meaning. The default bound is none, and then nothing raises it. -/
  | messageTooLong (length : Nat)
deriving DecidableEq, Repr

/-- The machine's state. `ctx` and `status` are the spec's architectural state (R12: INIT_FLAG = 1 exactly when `ctx` is
`some`; R13: while it is 0, CFG, KS and MS hold no value); `internal` is its internal state. `inputs`, `responses` and
`free` are the model's own: the host's events still to come, the responses given so far (both oldest first), and the number
of the next free value. -/
structure State where
  ctx       : Option Context
  status    : CmdWord
  internal  : Internal
  inputs    : List HostEvent
  responses : List Response
  free      : Nat
deriving DecidableEq, Repr

/-- What the internal registers hold at reset. The spec says unspecified (R24, R901): DESIGN CHOICE zero, notes/assumptions 5. -/
def Internal.reset : Internal := { x := 0, y := 0, rc := 0, ki := 0, bi := 0 }

/-- The machine right after reset (R24, R901): no context, STATUS zero; the host has issued nothing yet. -/
def State.reset : State :=
  { ctx := none, status := 0x00000000, internal := Internal.reset, inputs := [], responses := [], free := 0 }

end Sys2Proof.Machine
end

