-- ==== Sys2Proof/Machine/WordOps.lean ====
section
/-! DEFINITION. WordOps and ConstantSequence (40_wordops.md): rotations, the key-schedule constant, the five z sequences.
No function here reads or writes state (R52); XOR, AND and NOT are BitVec's own `^^^`, `&&&`, `~~~` (R46). -/

namespace Sys2Proof.Machine

/-- Rotate left (R43). The core uses it for r = 1, 2, 8 only. -/
def rotl (v : Word) (r : Nat) : Word := (v <<< r) ||| (v >>> (64 - r))

/-- Rotate right (R44). The core uses it for r = 1, 3 only. -/
def rotr (v : Word) (r : Nat) : Word := (v >>> r) ||| (v <<< (64 - r))

/-- The key-schedule constant c = 2^64 - 4 (R47). -/
def keyConst : Word := 0xfffffffffffffffc

/-- The packed z sequences: bit t of the word is z_j[t] for t below 62 (R48). -/
def zPacked (j : Fin 5) : Word :=
  match j with
  | 0 => 0x19c3522fb386a45f
  | 1 => 0x16864fb8ad0c9f71
  | 2 => 0x3369f885192c0ef5
  | 3 => 0x3c2ce51207a635db
  | 4 => 0x3dc94c3a046d678b

/-- The same sequences as R48 writes them out, the leftmost (most significant) digit being z_j[0]. -/
def zWritten (j : Fin 5) : BitVec 62 :=
  match j with
  | 0 => 0b11111010001001010110000111001101111101000100101011000011100110
  | 1 => 0b10001110111110010011000010110101000111011111001001100001011010
  | 2 => 0b10101111011100000011010010011000101000010001111110010110110011
  | 3 => 0b11011011101011000110010111100000010010001010011100110100001111
  | 4 => 0b11010001111001101011011000100000010111000011001010010011101111

/-- Lookup with wrap-around: zbit(j, t) = z_j[t mod 62] (R49). -/
def zbit (j : Fin 5) (t : Nat) : Bool := (zPacked j).getLsbD (t % 62)

/-- zext_64(zbit(j, t)), the form in which the recurrence uses the bit (R302). -/
def zWord (j : Fin 5) (t : Nat) : Word := if zbit j t then 1 else 0

end Sys2Proof.Machine
end

