-- ==== Sys2Proof/Machine/Operands.lean ====
section
/-! DEFINITION. How operands are read and written: byte strings and integers (R9), blocks and keys as words under either byte
order (R26 to R28), payload access (R10), the INIT fields as configuration (R204 to R206, R702). -/

namespace Sys2Proof.Machine

/-- A byte string as a little-endian integer (R9). -/
def leNat : Bytes → Nat
  | [] => 0
  | b :: bs => b.toNat + 256 * leNat bs

/-- A byte string as a big-endian integer (R9). -/
def beNat (bs : Bytes) : Nat := leNat bs.reverse

/-- The low `n` bytes of an integer, least significant first: the inverse of `leNat` (R9). -/
def toLE : Nat → Nat → Bytes
  | 0, _ => []
  | n + 1, v => BitVec.ofNat 8 v :: toLE n (v / 256)

/-- The low `n` bytes of an integer, most significant first (R9). -/
def toBE (n v : Nat) : Bytes := (toLE n v).reverse

/-- LE64 (R9). -/
def le64 (bs : Bytes) : Word := BitVec.ofNat 64 (leNat bs)

/-- BE64 (R27). -/
def be64 (bs : Bytes) : Word := BitVec.ofNat 64 (beNat bs)

/-- A 16-byte string as a block. Every caller gives 16 bytes (notes/assumptions 11). -/
def blockOfBytes (bs : Bytes) : Block := Vector.ofFn fun i => bs.getD i.val 0

/-- Block XOR, bytewise (R9). -/
def blockXor (p q : Block) : Block := Vector.ofFn fun i => p[i] ^^^ q[i]

/-- `MemRead(addr, n)`: the bytes `payload<addr..addr+n-1>` (R10). -/
def memRead (payload : Bytes) (addr n : Nat) : Bytes := (payload.drop addr).take n

/-- `MemWrite(addr, n, v)` with `n = len(v)`: the output string with the bytes of `v` at offset `addr` (R10). -/
def memWrite (out : Bytes) (addr : Nat) (v : Bytes) : Bytes :=
  out.take addr ++ v ++ out.drop (addr + v.length)

/-- A block as its word pair `(x, y)` (R26 for LE, R27 for BE). -/
def blockWords : WordByteOrder → Block → Pair
  | .le, b => (le64 (memRead b.toList 8 8), le64 (memRead b.toList 0 8))
  | .be, b => (be64 (memRead b.toList 0 8), be64 (memRead b.toList 8 8))

/-- A word pair `(x, y)` as a block: the inverse mapping (R26, R27). -/
def wordsBlock : WordByteOrder → Pair → Block
  | .le, (x, y) => blockOfBytes (toLE 8 y.toNat ++ toLE 8 x.toNat)
  | .be, (x, y) => blockOfBytes (toBE 8 x.toNat ++ toBE 8 y.toNat)

/-- The master-key words `(k0, k1)` of the 16 key bytes (R28 for LE, R27 for BE). -/
def keyWords : WordByteOrder → Block → Word × Word
  | .le, key => (le64 (memRead key.toList 0 8), le64 (memRead key.toList 8 8))
  | .be, key => (be64 (memRead key.toList 8 8), be64 (memRead key.toList 0 8))

/-- The MODE field's mode; values 5 to 7 are unsupported (R204). -/
def modeOfBits (m : BitVec 3) : Option Mode :=
  if m = 0 then some .ecb
  else if m = 1 then some .cbc
  else if m = 2 then some .ctr
  else if m = 3 then some .cfb
  else if m = 4 then some .ofb
  else none

/-- The MODE value of a mode (R14, R204). -/
def modeBits : Mode → BitVec 3
  | .ecb => 0
  | .cbc => 1
  | .ctr => 2
  | .cfb => 3
  | .ofb => 4

/-- The VARIANT field's variant; values 1 to 15 are unsupported (R205). -/
def variantOfBits (v : BitVec 4) : Option Variant :=
  if v = 0 then some .simon128 else none

/-- The VARIANT value of a variant, as CFG.VARIANT holds it (R14). -/
def variantBits : Variant → BitVec 4
  | .simon128 => 0

/-- ZSEQ: the constant sequence a variant's key schedule reads (R50). -/
def variantZ : Variant → Fin 5
  | .simon128 => 2

/-- The key size in bytes that is consistent with a variant (R206). -/
def variantKeyBytes : Variant → BitVec 8
  | .simon128 => 16

/-- The block size in bytes that is consistent with a variant (R206). -/
def variantBlockBytes : Variant → BitVec 8
  | .simon128 => 16

/-- `round_limit`, determined by the variant alone (R5, R14). -/
def variantRounds : Variant → BitVec 7
  | .simon128 => 68

/-- The one conversion of operands: sizes in bytes to sizes in bits (R206, R214). -/
def bitsOfBytes (n : BitVec 8) : BitVec 16 := BitVec.ofNat 16 (8 * n.toNat)

/-- CFG as a successful INIT writes it (R14, R702). -/
def cfgFor (v : Variant) (m : Mode) : Cfg :=
  { variant := v, mode := m
    keySize := bitsOfBytes (variantKeyBytes v), blockSize := bitsOfBytes (variantBlockBytes v)
    roundLimit := variantRounds v, zSeq := BitVec.ofNat 3 (variantZ v).val }

/-- The three checks of INIT in R702's order: variant, sizes, mode. `none` is CONFIG_ERROR (R802). -/
def initCfg (mode : BitVec 3) (variant : BitVec 4) (keyBytes blockBytes : BitVec 8) : Option Cfg :=
  match variantOfBits variant with
  | none => none
  | some v =>
    if keyBytes ≠ variantKeyBytes v ∨ blockBytes ≠ variantBlockBytes v then none
    else match modeOfBits mode with
      | none => none
      | some m => some (cfgFor v m)

/-- The message length is one the policy admits: a whole number of blocks (R6, R37, R804). -/
def lengthAdmitted : PartialPolicy → Nat → Bool
  | .reject, n => n % 16 == 0

/-- The message length is within the realisation's bound (R708). -/
def withinBound (bound : Option Nat) (n : Nat) : Bool :=
  match bound with
  | none => true
  | some b => decide (n ≤ b)

/-- The blocks `B_0 … B_{N-1}` of a message of `16 N` bytes (R36). -/
def messageBlocks (msg : Bytes) : List Block :=
  (List.range (msg.length / 16)).map fun j => blockOfBytes (memRead msg (16 * j) 16)

/-- The output string `O_0 ++ … ++ O_{N-1}` (R36). -/
def joinBlocks (bs : List Block) : Bytes := bs.flatMap fun b => b.toList

end Sys2Proof.Machine
end

