-- ==== Sys2Proof/Machine/Flags.lean ====
section
/-! DEFINITION. STATUS, the only flag-like state of the core (R17, R210, R211). There are no condition codes (R17, R22). -/

namespace Sys2Proof.Machine

/-- The RESULT value of a result code (R211). -/
def resultBits : ResultCode → BitVec 4
  | .ok => 0
  | .configError => 1
  | .lengthError => 2
  | .notInitialized => 3
  | .illegalCommand => 4

/-- INIT_FLAG as a bit: 1 exactly when a context exists (R12, R13). -/
def initBit (ctx : Option Context) : BitVec 1 := if ctx.isSome then 1 else 0

/-- The MODE field of the status word: CFG.MODE, or 0 without a context (R17, R210). -/
def statusMode (ctx : Option Context) : BitVec 3 :=
  match ctx with
  | none => 0
  | some c => modeBits c.cfg.mode

/-- `status(code)`, the formula of R210. -/
def statusWord (ctx : Option Context) (code : ResultCode) : CmdWord :=
  ((statusMode ctx).zeroExtend 32 <<< 5) ||| ((initBit ctx).zeroExtend 32 <<< 4) ||| (resultBits code).zeroExtend 32

/-- STATUS.RESULT (R210). -/
def statusResultField (sw : CmdWord) : BitVec 4 := sw.extractLsb' 0 4

/-- STATUS.INIT (R210). -/
def statusInitField (sw : CmdWord) : BitVec 1 := sw.extractLsb' 4 1

/-- STATUS.MODE (R210). -/
def statusModeField (sw : CmdWord) : BitVec 3 := sw.extractLsb' 5 3

/-- STATUS[31:8], reserved (R210). -/
def statusReservedField (sw : CmdWord) : BitVec 24 := sw.extractLsb' 8 24

end Sys2Proof.Machine
end

