-- ==== Sys2Proof/Machine/KeySchedule.lean ====
section
/-! DEFINITION. Key expansion (41_key_schedule.md): the recurrence of R302 from the two master-key words of R301. -/

namespace Sys2Proof.Machine

/-- The rotate-by-3 and rotate-by-1 combination of a word: `tmp` of R302. -/
def keyCombine (k : Word) : Word := rotr k 3 ^^^ rotr (rotr k 3) 1

/-- One step of the recurrence: `KS[i]` from `KS[i-2]` and `KS[i-1]` (R302). -/
def keyNext (z : Fin 5) (i : Nat) (k2 k1 : Word) : Word :=
  k2 ^^^ keyCombine k1 ^^^ keyConst ^^^ zWord z (i - 2)

/-- The `n` round keys from index `i` on, given the two before it. -/
def keyExpandFrom (z : Fin 5) : Nat → Nat → Word → Word → List Word
  | 0, _, _, _ => []
  | n + 1, i, k2, k1 => keyNext z i k2 k1 :: keyExpandFrom z n (i + 1) k1 (keyNext z i k2 k1)

/-- The recurrence gives as many words as it is asked for. -/
theorem keyExpandFrom_length (z : Fin 5) (n : Nat) :
    ∀ (i : Nat) (k2 k1 : Word), (keyExpandFrom z n i k2 k1).length = n := by
  induction n with
  | zero => intro i k2 k1; rfl
  | succ n ih => intro i k2 k1; simp [keyExpandFrom, ih]

/-- KeyExpand (R300): the master-key words, then the 66 words of the recurrence. Total over all keys (R307). -/
def keyExpand (o : WordByteOrder) (v : Variant) (key : Block) : Schedule :=
  let k := keyWords o key
  ⟨(k.1 :: k.2 :: keyExpandFrom (variantZ v) 66 2 k.1 k.2).toArray, by simp [keyExpandFrom_length]⟩

end Sys2Proof.Machine
end

