-- ==== Sys2Proof/Machine/Round.lean ====
section
/-! DEFINITION. The Simon function and one round, forward and inverse (42_round_function.md). -/

namespace Sys2Proof.Machine

/-- The Simon function f (R400). -/
def simonF (x : Word) : Word := (rotl x 1 &&& rotl x 8) ^^^ rotl x 2

/-- `RoundFwd((x, y), k) = (y ⊕ f(x) ⊕ k, x)` (R401). -/
def roundFwd (b : Pair) (k : Word) : Pair := (b.2 ^^^ simonF b.1 ^^^ k, b.1)

/-- `RoundInv((x, y), k) = (y, x ⊕ f(y) ⊕ k)` (R402). -/
def roundInv (b : Pair) (k : Word) : Pair := (b.2, b.1 ^^^ simonF b.2 ^^^ k)

end Sys2Proof.Machine
end

