-- ==== Sys2Proof/Machine/BlockCipher.lean ====
section
/-! DEFINITION. The block transforms as functions of the block and the schedule (43_block_cipher.md; the function form R507
allows). The iterative datapath that realises them is in Machine/Sequencer.lean. -/

namespace Sys2Proof.Machine

/-- The 68 forward rounds with KS[0], …, KS[67] in order (R501). -/
def encryptPair (ks : Schedule) (b : Pair) : Pair := ks.toList.foldl roundFwd b

/-- The 68 inverse rounds with KS[67], …, KS[0] (R502). -/
def decryptPair (ks : Schedule) (b : Pair) : Pair := ks.toList.reverse.foldl roundInv b

/-- encryptBlock (R501): total over all blocks, and it writes no state (R505). -/
def encryptBlock (o : WordByteOrder) (ks : Schedule) (b : Block) : Block :=
  wordsBlock o (encryptPair ks (blockWords o b))

/-- decryptBlock (R502). -/
def decryptBlock (o : WordByteOrder) (ks : Schedule) (b : Block) : Block :=
  wordsBlock o (decryptPair ks (blockWords o b))

end Sys2Proof.Machine
end

