-- ==== Sys2Proof/Machine/Modes.lean ====
section
/-! DEFINITION. The mode drivers (44_mode_driver.md): the ten mode steps, their dispatch (R600), the message iteration
(R601). A step takes the input block and MS, and gives the output block and the new MS. -/

namespace Sys2Proof.Machine

/-- The direction of a message: ENCRYPT or DECRYPT (R601). -/
inductive Dir where
  | enc
  | dec
deriving DecidableEq, Repr

/-- The counter increment: big-endian over the whole block, wrapping at 2^128, whatever the word byte order (R35, R610). -/
def counterInc (ms : Block) : Block :=
  blockOfBytes (toBE 16 ((beNat ms.toList + 1) % 2 ^ 128))

/-- ECB encrypt step (R602). -/
def ecbEncStep (enc : Block → Block) (p ms : Block) : Block × Block := (enc p, ms)

/-- ECB decrypt step (R603). -/
def ecbDecStep (dec : Block → Block) (c ms : Block) : Block × Block := (dec c, ms)

/-- CBC encrypt step (R604). -/
def cbcEncStep (enc : Block → Block) (p ms : Block) : Block × Block :=
  (enc (blockXor p ms), enc (blockXor p ms))

/-- CBC decrypt step (R605): MS becomes the input ciphertext block. -/
def cbcDecStep (dec : Block → Block) (c ms : Block) : Block × Block := (blockXor (dec c) ms, c)

/-- CFB encrypt step (R606). -/
def cfbEncStep (enc : Block → Block) (p ms : Block) : Block × Block :=
  (blockXor p (enc ms), blockXor p (enc ms))

/-- CFB decrypt step (R607): the forward transform, and MS becomes the input ciphertext block. -/
def cfbDecStep (enc : Block → Block) (c ms : Block) : Block × Block := (blockXor c (enc ms), c)

/-- OFB encrypt step (R608): MS becomes the keystream block. -/
def ofbEncStep (enc : Block → Block) (p ms : Block) : Block × Block := (blockXor p (enc ms), enc ms)

/-- OFB decrypt step (R609). -/
def ofbDecStep (enc : Block → Block) (c ms : Block) : Block × Block := (blockXor c (enc ms), enc ms)

/-- CTR encrypt step (R611). -/
def ctrEncStep (enc : Block → Block) (p ms : Block) : Block × Block := (blockXor p (enc ms), counterInc ms)

/-- CTR decrypt step (R612). -/
def ctrDecStep (enc : Block → Block) (c ms : Block) : Block × Block := (blockXor c (enc ms), counterInc ms)

/-- Dispatch on the mode and the direction (R600), over the two block transforms. -/
def modeStep (enc dec : Block → Block) : Mode → Dir → Block → Block → Block × Block
  | .ecb, .enc => ecbEncStep enc
  | .ecb, .dec => ecbDecStep dec
  | .cbc, .enc => cbcEncStep enc
  | .cbc, .dec => cbcDecStep dec
  | .ctr, .enc => ctrEncStep enc
  | .ctr, .dec => ctrDecStep enc
  | .cfb, .enc => cfbEncStep enc
  | .cfb, .dec => cfbDecStep enc
  | .ofb, .enc => ofbEncStep enc
  | .ofb, .dec => ofbDecStep enc

/-- A step applied to the blocks in order, each seeing the MS the one before it left (R601, R908): the output blocks and the
final MS. -/
def runBlocks (step : Block → Block → Block × Block) : List Block → Block → List Block × Block
  | [], ms => ([], ms)
  | b :: bs, ms =>
    ((step b ms).1 :: (runBlocks step bs (step b ms).2).1, (runBlocks step bs (step b ms).2).2)

/-- The mode step of a context under a byte order: dispatch on CFG.MODE, with the context's schedule (R600). -/
def contextStep (o : WordByteOrder) (dir : Dir) (c : Context) : Block → Block → Block × Block :=
  modeStep (encryptBlock o c.ks) (decryptBlock o c.ks) c.cfg.mode dir

/-- ModeRun (R601): the output byte string and the final MS. -/
def modeRun (o : WordByteOrder) (dir : Dir) (c : Context) (msg : Bytes) : Bytes × Block :=
  let r := runBlocks (contextStep o dir c) (messageBlocks msg) c.ms
  (joinBlocks r.1, r.2)

end Sys2Proof.Machine
end

