-- ==== Sys2Proof/Machine/Ops.lean ====
section
/-! DEFINITION. The named operations over the state: the register accessors, completing a command, raising an error (the
core's only exception mechanism: no trap entry, no return, R805, R809, R810), and reset. -/

namespace Sys2Proof.Machine

/-- INIT_FLAG (R13). -/
def State.initFlag (s : State) : BitVec 1 := initBit s.ctx

/-- CFG, where the core holds a context (R14). -/
def State.cfg? (s : State) : Option Cfg := s.ctx.map Context.cfg

/-- KS, where the core holds a context (R15). -/
def State.ks? (s : State) : Option Schedule := s.ctx.map Context.ks

/-- MS, where the core holds a context (R16). -/
def State.ms? (s : State) : Option Block := s.ctx.map Context.ms

/-- The session's context replaced: CFG, KS, MS written and INIT_FLAG set (R702). -/
def State.setContext (s : State) (c : Context) : State := { s with ctx := some c }

/-- INIT_FLAG cleared; CFG, KS and MS hold no value (R705, R901). -/
def State.clearContext (s : State) : State := { s with ctx := none }

/-- What the internal registers hold once the `n`-th command has completed: free values (R23, U10). -/
def freeInternal (n : Nat) : Internal :=
  { x := Config.freeX n, y := Config.freeY n, rc := Config.freeRC n, ki := Config.freeKI n, bi := Config.freeBI n }

/-- `respond(code, out)` (R701): STATUS is computed after all other writes, and the response carries the same word. The
internal registers hold nothing afterwards (R23, R505). -/
def respond (code : ResultCode) (out : Bytes) (s : State) : State :=
  { s with
    status := statusWord s.ctx code
    responses := s.responses ++ [{ sw := statusWord s.ctx code, out := out }]
    internal := freeInternal s.free
    free := s.free + 1 }

/-- `raise E` (R805): the response carries the error and no output; nothing else is written. -/
def raise (code : ResultCode) (s : State) : State := respond code [] s

/-- The effect of reset (R900, R901): no response; the host's events and the record of responses are outside the core. -/
def applyReset (s : State) : State :=
  { s with ctx := State.reset.ctx, status := State.reset.status, internal := State.reset.internal }

end Sys2Proof.Machine
end

