-- ==== Sys2Proof/WellFormed.lean ====
section
/-! DEFINITION. Which instruction terms a transaction can spell: an INIT carries a 16-byte key and a 16-byte IV or counter
(R207, R212). Every other operand's range is in its type. -/

namespace Sys2Proof

/-- The INIT payload's two halves have the lengths R207 gives them. -/
def initPayloadOk (key iv : Bytes) : Bool :=
  key.length == 16 && iv.length == 16

/-- The term is one that R212's decode can return. A message of any length is well formed here: its length is checked by
the command, not by decode (R208). -/
def Instr.wf : Instr → Bool
  | .init _ _ _ _ key iv => initPayloadOk key iv
  | .encrypt _ => true
  | .decrypt _ => true
  | .discard => true

end Sys2Proof
end

