-- ==== Sys2Proof/Machine/Commands.lean ====
section
/-! DEFINITION. The four commands (45_commands.md): one meaning each, over the shared operations. -/

namespace Sys2Proof.Machine

/-- INIT under given parameters (R702): every check precedes every write (R805). A term whose key or IV is not 16 bytes
spells no command (R801 case 3); decode never gives one (notes/assumptions 11). -/
def initUnder (P : Params) (mode : BitVec 3) (variant : BitVec 4) (keyBytes blockBytes : BitVec 8) (key iv : Bytes)
    (s : State) : Host.Outcome State Fault Refusal :=
  if initPayloadOk key iv then
    match initCfg mode variant keyBytes blockBytes with
    | none => .next (raise .configError s)
    | some cfg =>
      .next (respond .ok [] (s.setContext
        { cfg := cfg, ks := keyExpand P.wordByteOrder cfg.variant (blockOfBytes key), ms := blockOfBytes iv }))
  else .next (raise .illegalCommand s)

/-- ENCRYPT and DECRYPT under given parameters (R703, R704): NOT_INITIALIZED, then LENGTH_ERROR (R806), then the refusal of
R708, then the mode driver; MS is advanced and STATUS written. -/
def cryptUnder (P : Params) (dir : Dir) (msg : Bytes) (s : State) : Host.Outcome State Fault Refusal :=
  match s.ctx with
  | none => .next (raise .notInitialized s)
  | some c =>
    if !lengthAdmitted P.partialPolicy msg.length then .next (raise .lengthError s)
    else if !withinBound P.maxMessageBytes msg.length then .refused (.messageTooLong msg.length)
    else .next (respond .ok (modeRun P.wordByteOrder dir c msg).1
      (s.setContext { c with ms := (modeRun P.wordByteOrder dir c msg).2 }))

/-- INIT (R702). -/
def execInit (mode : BitVec 3) (variant : BitVec 4) (keyBytes blockBytes : BitVec 8) (key iv : Bytes) (s : State) :
    Host.Outcome State Fault Refusal :=
  initUnder Config.params mode variant keyBytes blockBytes key iv s

/-- ENCRYPT (R703). -/
def execEncrypt (msg : Bytes) (s : State) : Host.Outcome State Fault Refusal :=
  cryptUnder Config.params .enc msg s

/-- DECRYPT (R704). -/
def execDecrypt (msg : Bytes) (s : State) : Host.Outcome State Fault Refusal :=
  cryptUnder Config.params .dec msg s

/-- DISCARD (R705): OK with or without a context. -/
def execDiscard (s : State) : Host.Outcome State Fault Refusal :=
  .next (respond .ok [] s.clearContext)

end Sys2Proof.Machine
end

