-- ==== Sys2Proof/Machine/Dispatch.lean ====
section
/-! DEFINITION. Which meaning each instruction has: one arm per constructor of Instr (R700). -/

namespace Sys2Proof.Machine

def exec (i : Instr) (s : State) : Host.Outcome State Fault Refusal :=
  match i with
  | .init mode variant keyBytes blockBytes key iv => Sys2Proof.Machine.execInit mode variant keyBytes blockBytes key iv s
  | .encrypt msg => Sys2Proof.Machine.execEncrypt msg s
  | .decrypt msg => Sys2Proof.Machine.execDecrypt msg s
  | .discard => Sys2Proof.Machine.execDiscard s

end Sys2Proof.Machine
end

