-- ==== Sys2Proof/Decode.lean ====
section
/-! DEFINITION. Decoding a command (R200 to R215): total, rejecting by name; the encoder written from the same tables; and
the host's table word as a transaction. -/

namespace Sys2Proof

/-- Why a command spells no instruction: the five cases of R801, in its order. Not observable: each gives ILLEGAL_COMMAND. -/
inductive Reject where
  /-- R801 case 1: OP is 0 or 5 to 15. -/
  | unassignedOp
  /-- R801 case 2: INIT with bit 7 or any of bits 15..12 set. -/
  | initReservedBits
  /-- R801 case 3: INIT with a payload that is not 32 bytes. -/
  | initPayloadLength
  /-- R801 case 4: ENCRYPT, DECRYPT or DISCARD with any of bits 31..4 set. -/
  | reservedBits
  /-- R801 case 5: DISCARD with a payload. -/
  | discardPayload
deriving DecidableEq, Repr

/-- What decoding gives: an instruction, or `Illegal` with the model's name for the reason (R212). -/
inductive Decoded where
  | ok (i : Instr)
  | illegal (why : Reject)
deriving DecidableEq, Repr

/-- The instruction of a decode, if it is one. -/
def Decoded.toOption : Decoded → Option Instr
  | .ok i => some i
  | .illegal _ => none

/-- OP = cw[3:0] (R201). -/
def opField (cw : CmdWord) : BitVec 4 := cw.extractLsb' 0 4

/-- MODE = cw[6:4] (R203). -/
def modeField (cw : CmdWord) : BitVec 3 := cw.extractLsb' 4 3

/-- The reserved bit cw[7] of INIT (R203). -/
def rsv7Field (cw : CmdWord) : BitVec 1 := cw.extractLsb' 7 1

/-- VARIANT = cw[11:8] (R203). -/
def variantField (cw : CmdWord) : BitVec 4 := cw.extractLsb' 8 4

/-- The reserved bits cw[15:12] of INIT (R203). -/
def rsv15Field (cw : CmdWord) : BitVec 4 := cw.extractLsb' 12 4

/-- KEY_BYTES = cw[23:16] (R203). -/
def keyBytesField (cw : CmdWord) : BitVec 8 := cw.extractLsb' 16 8

/-- BLOCK_BYTES = cw[31:24] (R203). -/
def blockBytesField (cw : CmdWord) : BitVec 8 := cw.extractLsb' 24 8

/-- The bits cw[31:4], reserved in every format but INIT's (R208). -/
def upperField (cw : CmdWord) : BitVec 28 := cw.extractLsb' 4 28

/-- INIT's decode (R212): reserved bits, then the payload length, then the fields and the payload's halves (R207). -/
def decodeInit (cw : CmdWord) (payload : Bytes) : Decoded :=
  if rsv7Field cw ≠ 0 ∨ rsv15Field cw ≠ 0 then .illegal .initReservedBits
  else if payload.length ≠ 32 then .illegal .initPayloadLength
  else .ok (.init (modeField cw) (variantField cw) (keyBytesField cw) (blockBytesField cw)
    (payload.take 16) (payload.drop 16))

/-- R212: every 32-bit word with a payload of any length decodes to exactly one result. It reads no state. -/
def decode (cw : CmdWord) (payload : Bytes) : Decoded :=
  if opField cw = 0x1 then decodeInit cw payload
  else if opField cw = 0x2 then
    if upperField cw ≠ 0 then .illegal .reservedBits else .ok (.encrypt payload)
  else if opField cw = 0x3 then
    if upperField cw ≠ 0 then .illegal .reservedBits else .ok (.decrypt payload)
  else if opField cw = 0x4 then
    if upperField cw ≠ 0 then .illegal .reservedBits
    else if payload ≠ [] then .illegal .discardPayload
    else .ok .discard
  else .illegal .unassignedOp

/-- INIT's command word, each field shifted to its place in the figure of R203 and the reserved bits zero. -/
def encodeInitWord (mode : BitVec 3) (variant : BitVec 4) (keyBytes blockBytes : BitVec 8) : CmdWord :=
  (blockBytes.zeroExtend 32 <<< 24) ||| (keyBytes.zeroExtend 32 <<< 16) ||| (variant.zeroExtend 32 <<< 8) |||
    (mode.zeroExtend 32 <<< 4) ||| 0x1

/-- The command word and payload of an instruction (R203, R207, R208, R209). -/
def encode : Instr → CmdWord × Bytes
  | .init mode variant keyBytes blockBytes key iv =>
    (encodeInitWord mode variant keyBytes blockBytes, key ++ iv)
  | .encrypt msg => (0x00000002, msg)
  | .decrypt msg => (0x00000003, msg)
  | .discard => (0x00000004, [])

/-- One row of the table of legal command words (R209). -/
structure OpcodeRow where
  mnemonic : String
  pattern  : CmdWord
  mask     : CmdWord
deriving DecidableEq, Repr

/-- R209: the complete set of legal command words, each `pattern` under `mask`. -/
def opcodeTable : List OpcodeRow :=
  [ { mnemonic := "INIT",    pattern := 0x00000001, mask := 0x0000F08F }
  , { mnemonic := "ENCRYPT", pattern := 0x00000002, mask := 0xFFFFFFFF }
  , { mnemonic := "DECRYPT", pattern := 0x00000003, mask := 0xFFFFFFFF }
  , { mnemonic := "DISCARD", pattern := 0x00000004, mask := 0xFFFFFFFF } ]

/-- The word lies under the row's mask and pattern (R209). -/
def OpcodeRow.covers (r : OpcodeRow) (cw : CmdWord) : Bool :=
  (cw &&& r.mask) == r.pattern

/-- The row an instruction belongs to (R202, R209). -/
def Instr.mnemonic : Instr → String
  | .init .. => "INIT"
  | .encrypt _ => "ENCRYPT"
  | .decrypt _ => "DECRYPT"
  | .discard => "DISCARD"

/-- `n` bytes of a number, the least significant first. -/
def bytesOfNat : Nat → Nat → Bytes
  | 0, _ => []
  | n + 1, w => BitVec.ofNat 8 w :: bytesOfNat n (w / 256)

/-- The host's table word as a transaction: bits 31..0 are the command word, the bits above them the payload. The table
gives the payload no bits: INIT's 32 payload bytes are then zeros (the only length its format has, R207), and every other
payload has exactly the bytes `nbits` gives it, none for a 32-bit row (notes/assumptions 12). -/
def tableCommand (nbits w : Nat) : CmdWord × Bytes :=
  let v := w % 2 ^ nbits
  (BitVec.ofNat 32 v, bytesOfNat (if v % 16 = 1 then 32 else (nbits - 32) / 8) (v / 2 ^ 32))

/-- The instruction the decoder reads from a table word. -/
def decodeTableWord (nbits w : Nat) : Option Instr :=
  (decode (tableCommand nbits w).1 (tableCommand nbits w).2).toOption

end Sys2Proof
end

