-- ==== Sys2Proof/Machine/Port.lean ====
section
/-! DEFINITION. The command port (R200): taking the host's next event, decoding its command, and placing a command there. -/

namespace Sys2Proof.Machine

/-- What the port gives the core next. -/
inductive Fetched where
  /-- The host has issued nothing: the core idles (R818). -/
  | idle
  /-- The host asserts reset (R900). -/
  | reset
  /-- A command that decodes to an instruction (R212). -/
  | instr (i : Instr)
  /-- A command that spells no instruction (R801). -/
  | illegal (why : Reject)
deriving DecidableEq, Repr

/-- A command as the core decodes it (R212, R700). -/
def fetchCommand (cw : CmdWord) (payload : Bytes) : Fetched :=
  match decode cw payload with
  | .ok i => .instr i
  | .illegal why => .illegal why

/-- The host's next event, as the core sees it. -/
def fetch (s : State) : Fetched :=
  match s.inputs with
  | [] => .idle
  | .reset :: _ => .reset
  | .command cw payload :: _ => fetchCommand cw payload

/-- The port has accepted the event at its head. -/
def accept (s : State) : State := { s with inputs := s.inputs.tail }

/-- The host issues one command as its next event. -/
def issue (cw : CmdWord) (payload : Bytes) (s : State) : State :=
  { s with inputs := .command cw payload :: s.inputs }

end Sys2Proof.Machine
end

