-- ==== Sys2Proof/Machine/Step.lean ====
section
/-! DEFINITION. The step (R700): the core takes the host's next event and performs it whole. -/

namespace Sys2Proof.Machine

/-- One step: idle (R818), reset (R901), a command (R702 to R705), or an illegal command, which is answered with
ILLEGAL_COMMAND and changes nothing else (R706). -/
def step (s : State) : Host.Outcome State Fault Refusal :=
  match fetch s with
  | .idle => .next s
  | .reset => .next (applyReset (accept s))
  | .instr i => exec i (accept s)
  | .illegal _ => .next (raise .illegalCommand (accept s))

/-- The host issues the table word's command next, so that the very next step runs it (notes/assumptions 12). -/
def State.withFetchWord (s : State) (nbits w : Nat) : State :=
  issue (tableCommand nbits w).1 (tableCommand nbits w).2 s

end Sys2Proof.Machine
end

