-- ==== Sys2Proof/Machine/Assembler.lean ====
section
/-! DEFINITION. The assembler syntax of command sequences (R216), the pseudo-commands (R217) and the named command words
(R218). A host tool, not the core: it says which transaction a line of text stands for. -/

namespace Sys2Proof.Machine

/-- One line of R216 as a term. -/
inductive AsmLine where
  | init (mode : BitVec 3) (key iv : Bytes) (variant : BitVec 4) (keyBytes blockBytes : BitVec 8)
  | encrypt (msg : Bytes)
  | decrypt (msg : Bytes)
  | discard
  | raw (cw : CmdWord) (payload : Bytes)
deriving DecidableEq, Repr

/-- The pseudo-commands of R217. -/
inductive AsmPseudo where
  | initEcb (key : Bytes)
  | initCbc (key iv : Bytes)
  | initCtr (key ctr : Bytes)
  | initCfb (key iv : Bytes)
  | initOfb (key iv : Bytes)
  | xcrypt (msg : Bytes)
deriving DecidableEq, Repr

/-- INIT with the defaults `variant=0, keybytes=16, blockbytes=16` (R216). -/
def asmInitDefault (m : Mode) (key iv : Bytes) : AsmLine := .init (modeBits m) key iv 0 16 16

/-- The transaction of a line: INIT's word by R203 and its payload `key ++ iv` (R216). -/
def assemble : AsmLine → CmdWord × Bytes
  | .init mode key iv variant keyBytes blockBytes => encode (.init mode variant keyBytes blockBytes key iv)
  | .encrypt msg => encode (.encrypt msg)
  | .decrypt msg => encode (.decrypt msg)
  | .discard => encode .discard
  | .raw cw payload => (cw, payload)

/-- The expansions of R217.
DESIGN CHOICE (notes/assumptions 17): R217 has XCRYPT "Only in CTR or OFB" and does not say what the text stands for in
another session, or in none. A line is assembled without the core's state, and XCRYPT expands to ENCRYPT wherever it
stands. -/
def asmExpand : AsmPseudo → AsmLine
  | .initEcb key => asmInitDefault .ecb key (List.replicate 16 0)
  | .initCbc key iv => asmInitDefault .cbc key iv
  | .initCtr key ctr => asmInitDefault .ctr key ctr
  | .initCfb key iv => asmInitDefault .cfb key iv
  | .initOfb key iv => asmInitDefault .ofb key iv
  | .xcrypt msg => .encrypt msg

/-- The usual INIT word of a mode: `0x10100001 | MODE << 4` (R217, R218). -/
def usualInitWord (m : Mode) : CmdWord := 0x10100001 ||| ((modeBits m).zeroExtend 32 <<< 4)

/-- Blank characters between the parts of a line. -/
def asmBlank (c : Char) : Bool := c == ' ' || c == '\t' || c == '\r'

/-- A text without its leading and trailing blanks. -/
def asmTrim (cs : List Char) : List Char :=
  ((cs.dropWhile asmBlank).reverse.dropWhile asmBlank).reverse

/-- A line up to its comment: `;` starts one (R216). -/
def asmCode (cs : List Char) : List Char := asmTrim (cs.takeWhile (· != ';'))

/-- The value of a hex digit. -/
def hexDigit (c : Char) : Option Nat :=
  if '0'.toNat ≤ c.toNat ∧ c.toNat ≤ '9'.toNat then some (c.toNat - '0'.toNat)
  else if 'a'.toNat ≤ c.toNat ∧ c.toNat ≤ 'f'.toNat then some (c.toNat - 'a'.toNat + 10)
  else if 'A'.toNat ≤ c.toNat ∧ c.toNat ≤ 'F'.toNat then some (c.toNat - 'A'.toNat + 10)
  else none

/-- A hex string: two digits a byte, byte 0 first (R216). -/
def hexBytes : List Char → Option Bytes
  | [] => some []
  | [_] => none
  | a :: b :: rest => do
    let hi ← hexDigit a
    let lo ← hexDigit b
    let bs ← hexBytes rest
    some (BitVec.ofNat 8 (16 * hi + lo) :: bs)

/-- A hex operand: a hex string, or `""` for the empty one (R216). -/
def hexOperand (cs : List Char) : Option Bytes :=
  if cs = ['"', '"'] then some [] else if cs = [] then none else hexBytes cs

/-- A 16-byte operand: 32 hex digits (R216). -/
def hex16 (cs : List Char) : Option Bytes := do
  let bs ← hexBytes cs
  if bs.length = 16 then some bs else none

/-- A decimal digit string read on from the value `acc`. -/
def decimalFrom (acc : Nat) : List Char → Option Nat
  | [] => some acc
  | c :: cs =>
    if '0'.toNat ≤ c.toNat ∧ c.toNat ≤ '9'.toNat then decimalFrom (10 * acc + (c.toNat - '0'.toNat)) cs else none

/-- A number `<n>` that fits `w` bits, in decimal (R216). -/
def fieldNumber (w : Nat) (cs : List Char) : Option (BitVec w) := do
  if cs = [] then none
  else
    let n ← decimalFrom 0 cs
    if n < 2 ^ w then some (BitVec.ofNat w n) else none

/-- `<0x8-digit word>`: `0x` and eight hex digits, most significant first (R216). -/
def hexWord : List Char → Option CmdWord
  | '0' :: 'x' :: digits => do
    let bs ← hexBytes digits
    if bs.length = 4 then some (BitVec.ofNat 32 (beNat bs)) else none
  | _ => none

/-- A text cut at its commas, each part trimmed. `acc` holds the part being read, reversed. -/
def splitCommasFrom (acc : List Char) : List Char → List (List Char)
  | [] => [asmTrim acc.reverse]
  | ',' :: cs => asmTrim acc.reverse :: splitCommasFrom [] cs
  | c :: cs => splitCommasFrom (c :: acc) cs

/-- The operands of a line. -/
def asmOperands (cs : List Char) : List (List Char) := splitCommasFrom [] cs

/-- The text after `name=`, where the operand begins so. -/
def asmField (name : String) (cs : List Char) : Option (List Char) :=
  let key := name.toList ++ ['=']
  if cs.take key.length = key then some (cs.drop key.length) else none

/-- An optional `name=<n>` at the head of the operands, and the operands after it (R216). -/
def asmOptional (name : String) (w : Nat) (default : BitVec w) (ops : List (List Char)) :
    Option (BitVec w × List (List Char)) :=
  match ops with
  | [] => some (default, [])
  | op :: rest =>
    match asmField name op with
    | none => some (default, ops)
    | some text => do
      let n ← fieldNumber w text
      some (n, rest)

/-- `<MODE>`: a mode's name, or `mode=<n>` with n from 0 to 7 (R216). -/
def asmMode (cs : List Char) : Option (BitVec 3) :=
  if cs = "ECB".toList then some (modeBits .ecb)
  else if cs = "CBC".toList then some (modeBits .cbc)
  else if cs = "CTR".toList then some (modeBits .ctr)
  else if cs = "CFB".toList then some (modeBits .cfb)
  else if cs = "OFB".toList then some (modeBits .ofb)
  else do
    let text ← asmField "mode" cs
    fieldNumber 3 text

/-- INIT's operands (R216). -/
def asmInit (ops : List (List Char)) : Option AsmLine := do
  match ops with
  | modeText :: keyText :: ivText :: rest =>
    let mode ← asmMode modeText
    let key ← (asmField "key" keyText).bind hex16
    let iv ← (asmField "iv" ivText).bind hex16
    let v ← asmOptional "variant" 4 0 rest
    let kb ← asmOptional "keybytes" 8 16 v.2
    let bb ← asmOptional "blockbytes" 8 16 kb.2
    if bb.2 = [] then some (.init mode key iv v.1 kb.1 bb.1) else none
  | _ => none

/-- `.cmd`'s operands (R216): no payload field means an empty payload. -/
def asmRaw (ops : List (List Char)) : Option AsmLine := do
  match ops with
  | [word] =>
    let cw ← hexWord word
    some (.raw cw [])
  | [word, payloadText] =>
    let cw ← hexWord word
    let payload ← (asmField "payload" payloadText).bind hexOperand
    some (.raw cw payload)
  | _ => none

/-- The operands `key=K, <name>=V` of a pseudo-command (R217). -/
def asmKeyAnd (name : String) (ops : List (List Char)) : Option (Bytes × Bytes) := do
  match ops with
  | [keyText, ivText] =>
    let key ← (asmField "key" keyText).bind hex16
    let iv ← (asmField name ivText).bind hex16
    some (key, iv)
  | _ => none

/-- A pseudo-command's line (R217). -/
def asmPseudo (mnemonic : List Char) (text : List Char) : Option AsmPseudo :=
  let ops := asmOperands text
  if mnemonic = "INIT.ECB".toList then
    match ops with
    | [keyText] => ((asmField "key" keyText).bind hex16).map .initEcb
    | _ => none
  else if mnemonic = "INIT.CBC".toList then (asmKeyAnd "iv" ops).map fun r => .initCbc r.1 r.2
  else if mnemonic = "INIT.CTR".toList then (asmKeyAnd "ctr" ops).map fun r => .initCtr r.1 r.2
  else if mnemonic = "INIT.CFB".toList then (asmKeyAnd "iv" ops).map fun r => .initCfb r.1 r.2
  else if mnemonic = "INIT.OFB".toList then (asmKeyAnd "iv" ops).map fun r => .initOfb r.1 r.2
  else if mnemonic = "XCRYPT".toList then (hexOperand text).map .xcrypt
  else none

/-- One line of assembler text (R216, R217); `none` where the text is no command line. Blank and comment lines hold no
command and are left out by the caller. -/
def parseLine (line : List Char) : Option AsmLine :=
  let code := asmCode line
  let mnemonic := code.takeWhile fun c => !asmBlank c
  let text := asmTrim (code.dropWhile fun c => !asmBlank c)
  if mnemonic = "INIT".toList then asmInit (asmOperands text)
  else if mnemonic = "ENCRYPT".toList then (hexOperand text).map .encrypt
  else if mnemonic = "DECRYPT".toList then (hexOperand text).map .decrypt
  else if mnemonic = "DISCARD".toList then (if text = [] then some .discard else none)
  else if mnemonic = ".cmd".toList then asmRaw (asmOperands text)
  else (asmPseudo mnemonic text).map asmExpand

/-- The transaction a line of text stands for. -/
def assembleText (line : String) : Option (CmdWord × Bytes) := (parseLine line.toList).map assemble

end Sys2Proof.Machine
end

