-- ==== Sys2Proof/Machine/Sequencer.lean ====
section
/-! DEFINITION. The iterative datapath (D27): the key-schedule sequencer (R306), the forward and inverse block sequencers
(R503, R504) and the mode driver's block loop (R601), one micro-step each, in the internal registers X, Y, RC, KI, BI. No
host action sees them part-way (R23), so the commands' meanings use the function form (R507); that the two agree, whatever
the registers held before, is stated as obligations. -/

namespace Sys2Proof.Machine

/-- `KS[i]` for a 7-bit index; above 67 no word exists (R30), and the value is free. -/
def keyAt (ks : Schedule) (i : BitVec 7) : Word :=
  if h : i.toNat < 68 then ks[i.toNat] else Config.absentRoundKey i

/-- `KS[i] <- w` for a 7-bit index; above 67 there is nothing to write (R30). -/
def keyPut (ks : Schedule) (i : BitVec 7) (w : Word) : Schedule := ks.setIfInBounds i.toNat w

/-- A block loaded into X and Y, and the round counter set (R503, R504). -/
def loadBlock (o : WordByteOrder) (b : Block) (rc : BitVec 7) (r : Internal) : Internal :=
  { r with x := (blockWords o b).1, y := (blockWords o b).2, rc := rc }

/-- One forward micro-step: both right-hand sides use the old X and Y (R503). -/
def forwardMicro (ks : Schedule) (r : Internal) : Internal :=
  { r with x := r.y ^^^ simonF r.x ^^^ keyAt ks r.rc, y := r.x }

/-- One inverse micro-step (R504). -/
def inverseMicro (ks : Schedule) (r : Internal) : Internal :=
  { r with x := r.y, y := r.x ^^^ simonF r.y ^^^ keyAt ks r.rc }

/-- The forward loop: it exits after the micro-step at RC = 67. `fuel` bounds the number of micro-steps (R503). -/
def forwardLoop (ks : Schedule) : Nat → Internal → Internal
  | 0, r => r
  | fuel + 1, r =>
    let r' := forwardMicro ks r
    if r'.rc = 67 then r' else forwardLoop ks fuel { r' with rc := r'.rc + 1 }

/-- The inverse loop: it exits after the micro-step at RC = 0 (R504). -/
def inverseLoop (ks : Schedule) : Nat → Internal → Internal
  | 0, r => r
  | fuel + 1, r =>
    let r' := inverseMicro ks r
    if r'.rc = 0 then r' else inverseLoop ks fuel { r' with rc := r'.rc - 1 }

/-- encryptBlock's sequencer (R503): the output block, and the registers as it leaves them. -/
def encryptSeq (o : WordByteOrder) (ks : Schedule) (b : Block) (r : Internal) : Block × Internal :=
  let r' := forwardLoop ks 68 (loadBlock o b 0 r)
  (wordsBlock o (r'.x, r'.y), r')

/-- decryptBlock's sequencer (R504). -/
def decryptSeq (o : WordByteOrder) (ks : Schedule) (b : Block) (r : Internal) : Block × Internal :=
  let r' := inverseLoop ks 68 (loadBlock o b 67 r)
  (wordsBlock o (r'.x, r'.y), r')

/-- One key-schedule step `KI = i`: it writes `KS[KI]` and nothing else (R302, R306). -/
def keyMicro (z : Fin 5) (ks : Schedule) (r : Internal) : Schedule :=
  keyPut ks r.ki (keyNext z r.ki.toNat (keyAt ks (r.ki - 2)) (keyAt ks (r.ki - 1)))

/-- The key-schedule loop: it exits after the step at KI = 67 (R306). -/
def keyLoop (z : Fin 5) : Nat → Schedule → Internal → Schedule × Internal
  | 0, ks, r => (ks, r)
  | fuel + 1, ks, r =>
    let ks' := keyMicro z ks r
    if r.ki = 67 then (ks', r) else keyLoop z fuel ks' { r with ki := r.ki + 1 }

/-- KeyExpand's sequencer, from whatever the round-key memory and the registers held before (R301, R302, R306). -/
def keyExpandSeq (o : WordByteOrder) (v : Variant) (key : Block) (ks : Schedule) (r : Internal) : Schedule × Internal :=
  let ks' := keyPut (keyPut ks 0 (keyWords o key).1) 1 (keyWords o key).2
  keyLoop (variantZ v) 66 ks' { r with ki := 2 }

/-- The mode driver's loop: block BI is read from the payload, stepped, and its output written at the same offset (R601).
The block transforms are the sequencers', started from the registers as they stand. `n` blocks remain.
DESIGN CHOICE (notes/assumptions 16), where the spec gives no value. BI is incremented after the last block too, so it ends
as the number of blocks, although R21 and R601 name only its values 0 to N - 1. The registers a block transform returns are
dropped, so X, Y and RC hold between two blocks what they held before the message; R505 says they hold nothing then. -/
def driverLoop (o : WordByteOrder) (dir : Dir) (c : Context) (msg : Bytes) :
    Nat → Block → Bytes → Internal → Bytes × Block × Internal
  | 0, ms, out, r => (out, ms, r)
  | n + 1, ms, out, r =>
    let res := modeStep (fun b => (encryptSeq o c.ks b r).1) (fun b => (decryptSeq o c.ks b r).1) c.cfg.mode dir
      (blockOfBytes (memRead msg (16 * r.bi) 16)) ms
    driverLoop o dir c msg n res.2 (memWrite out (16 * r.bi) res.1.toList) { r with bi := r.bi + 1 }

/-- ModeRun by the sequencers (R601): BI from 0, the output string empty, MS from the context. What the registers hold at
the end, BI among them, is the model's choice (notes/assumptions 16) and reaches no State. -/
def driverSeq (o : WordByteOrder) (dir : Dir) (c : Context) (msg : Bytes) (r : Internal) : Bytes × Block × Internal :=
  driverLoop o dir c msg (msg.length / 16) c.ms [] { r with bi := 0 }

end Sys2Proof.Machine
end

