-- ==== Sys2Proof/Safety.lean ====
section
/-! DEFINITION. The terms claims use: what a run shows (R710), what a host can see of a state (R23), and the invariant every
step keeps. -/

namespace Sys2Proof.Machine

/-- What a run shows: the responses, and the final architectural state (R710). -/
structure Observation where
  responses : List Response
  initFlag  : BitVec 1
  cfg?      : Option Cfg
  ks?       : Option Schedule
  ms?       : Option Block
  status    : CmdWord
deriving DecidableEq, Repr

/-- The observation of a state a run ended in. -/
def State.observation (s : State) : Observation :=
  { responses := s.responses, initFlag := s.initFlag, cfg? := s.cfg?, ks? := s.ks?, ms? := s.ms?, status := s.status }

/-- The observation of a run of `n` steps; a run that holds a refusal has none (R710). -/
def observe (n : Nat) (s : State) : Option Observation :=
  match Sys2Proof.core.run n s with
  | .next t => some (State.observation t)
  | .fault _ => none
  | .refused _ => none

/-- Two states that differ in nothing but the internal registers and the free-value counter (R23). -/
def SameVisible (s t : State) : Prop :=
  s.ctx = t.ctx ∧ s.status = t.status ∧ s.inputs = t.inputs ∧ s.responses = t.responses

/-- Two outcomes that no host can tell apart: the same refusal, or next states that differ in nothing visible. -/
def SameOutcome : Host.Outcome State Fault Refusal → Host.Outcome State Fault Refusal → Prop
  | .next s, .next t => SameVisible s t
  | .refused a, .refused b => a = b
  | _, _ => False

/-- The schedule obeys the recurrence of R302 at every index from 2 to 67. -/
def ScheduleOk (v : Variant) (ks : Schedule) : Prop :=
  ∀ (i : Nat) (h : 2 ≤ i ∧ i < 68),
    ks[i] = keyNext (variantZ v) i (ks[i - 2]'(by omega)) (ks[i - 1]'(by omega))

/-- A context a successful INIT can have built: CFG is its variant's (R14), KS obeys the recurrence (R302). -/
structure Context.Ok (c : Context) : Prop where
  cfg : c.cfg = cfgFor c.cfg.variant c.cfg.mode
  ks  : ScheduleOk c.cfg.variant c.ks

/-- The status word is one R210 and R211 allow: bits 31..8 zero, RESULT 0 to 4, MODE 0 to 4, MODE zero without a context. -/
def StatusOk (sw : CmdWord) : Prop :=
  statusReservedField sw = 0 ∧ (statusResultField sw).toNat ≤ 4 ∧ (statusModeField sw).toNat ≤ 4 ∧
    (statusInitField sw = 0 → statusModeField sw = 0)

/-- A response R701 allows: a legal status word, and output only with RESULT = OK. -/
def Response.Ok (r : Response) : Prop :=
  StatusOk r.sw ∧ (statusResultField r.sw ≠ 0 → r.out = [])

/-- The message is a whole number of blocks (R37). -/
abbrev WholeBlocks (msg : Bytes) : Prop := msg.length % 16 = 0

/-- Block `j` of a message or of an output string (R36). -/
def blockAt (bs : Bytes) (j : Nat) : Block := blockOfBytes (memRead bs (16 * j) 16)

/-- How many blocks a message has (R36). -/
def blockCount (msg : Bytes) : Nat := msg.length / 16

/-- The outcome is a next state in which the command issued in `s` has completed with `code` and `out` (R701): INIT_FLAG,
CFG, KS and MS are what `ctx` says, STATUS is `status(code)`, exactly one response was given and it carries STATUS, and the
host's later events are untouched. Nothing is said of the internal registers (R23). -/
def Answers (o : Host.Outcome State Fault Refusal) (s : State) (ctx : Option Context) (code : ResultCode) (out : Bytes) :
    Prop :=
  ∃ t, o = .next t ∧ t.ctx = ctx ∧ t.status = statusWord ctx code ∧
    t.responses = s.responses ++ [{ sw := statusWord ctx code, out := out }] ∧ t.inputs = s.inputs

/-- The invariant every step keeps. -/
structure State.Inv (s : State) : Prop where
  /-- Any context is one INIT can have built (R14, R15, R302). -/
  ctx : ∀ c, s.ctx = some c → c.Ok
  /-- STATUS is `status(code)` of the present INIT_FLAG and mode, for some result code (R17, R210). -/
  status : ∃ code, s.status = statusWord s.ctx code
  /-- Every response given so far is one R701 allows. -/
  responses : ∀ r ∈ s.responses, r.Ok

end Sys2Proof.Machine
end

