-- ==== Sys2Proof/Certificates/Slice0/Obligations.lean ====
section
/-! DEFINITION. The statements for the provers, from the numbered rules of spec/. -/

open Sys2Proof Sys2Proof.Machine

/-! ### Encoding and decoding (30_encoding.md) -/

/-- R203, R207, R208, R212: decoding what the encoder writes gives the instruction back, every operand at every value. -/
def Obligations.DecodeOfEncode : Prop :=
  ∀ i : Instr, i.wf = true → decode (encode i).1 (encode i).2 = .ok i

/-- R209, R212: a word and payload that decode are the ones the encoder writes for what they decode to. -/
def Obligations.EncodeOfDecode : Prop :=
  ∀ (cw : CmdWord) (payload : Bytes) (i : Instr), decode cw payload = .ok i → i.wf = true ∧ encode i = (cw, payload)

/-- R203, R212, R214: INIT's fields are the unsigned slices of the command word at their places, given here by division,
and its key and IV are the payload's halves. -/
def Obligations.InitFieldsAreSlices : Prop :=
  ∀ (cw : CmdWord) (payload : Bytes) (mode : BitVec 3) (variant : BitVec 4) (keyBytes blockBytes : BitVec 8)
    (key iv : Bytes), decode cw payload = .ok (.init mode variant keyBytes blockBytes key iv) →
    cw.toNat % 16 = 1 ∧ mode.toNat = cw.toNat / 2 ^ 4 % 8 ∧ variant.toNat = cw.toNat / 2 ^ 8 % 16 ∧
    keyBytes.toNat = cw.toNat / 2 ^ 16 % 256 ∧ blockBytes.toNat = cw.toNat / 2 ^ 24 ∧
    key.length = 16 ∧ iv.length = 16 ∧ key ++ iv = payload

/-- R801: decode answers Illegal in exactly the five cases listed. -/
def Obligations.IllegalExactlyFiveCases : Prop :=
  ∀ (cw : CmdWord) (payload : Bytes),
    (∃ why, decode cw payload = .illegal why) ↔
      ((cw.toNat % 16 = 0 ∨ 5 ≤ cw.toNat % 16) ∨
       (cw.toNat % 16 = 1 ∧ (cw.toNat / 2 ^ 7 % 2 = 1 ∨ cw.toNat / 2 ^ 12 % 16 ≠ 0)) ∨
       (cw.toNat % 16 = 1 ∧ payload.length ≠ 32) ∨
       ((cw.toNat % 16 = 2 ∨ cw.toNat % 16 = 3 ∨ cw.toNat % 16 = 4) ∧ cw.toNat / 2 ^ 4 ≠ 0) ∨
       (cw.toNat % 16 = 4 ∧ payload.length ≠ 0))

/-- R209: the words some payload makes a command of are exactly those under a row of the table, the row is the one named
for the instruction, and no word lies under two rows. -/
def Obligations.LegalWordsAreTheTable : Prop :=
  (∀ cw : CmdWord, (∃ payload i, decode cw payload = .ok i) ↔
    (cw &&& 0x0000F08F = 0x00000001 ∨ cw = 0x00000002 ∨ cw = 0x00000003 ∨ cw = 0x00000004)) ∧
  (∀ (cw : CmdWord) (payload : Bytes) (i : Instr), decode cw payload = .ok i →
    ∃ r ∈ opcodeTable, r.covers cw = true ∧ r.mnemonic = i.mnemonic) ∧
  (∀ (cw : CmdWord) (r r' : OpcodeRow), r ∈ opcodeTable → r' ∈ opcodeTable →
    r.covers cw = true → r'.covers cw = true → r = r')

/-- R202, R203, R218: words written out from the spec's encodings decode to the commands they stand for. -/
def Obligations.WrittenWordsDecode : Prop :=
  decode 0x10100001 (List.replicate 32 0) =
    .ok (.init 0 0 16 16 (List.replicate 16 0) (List.replicate 16 0)) ∧
  decode 0x10100031 (List.replicate 16 1 ++ List.replicate 16 2) =
    .ok (.init 3 0 16 16 (List.replicate 16 1) (List.replicate 16 2)) ∧
  decode 0x20080271 (List.replicate 32 0) =
    .ok (.init 7 2 8 32 (List.replicate 16 0) (List.replicate 16 0)) ∧
  decode 0x00000002 [0x20, 0x74] = .ok (.encrypt [0x20, 0x74]) ∧
  decode 0x00000003 [] = .ok (.decrypt []) ∧
  decode 0x00000004 [] = .ok .discard

/-- R217, R218: the assembler's INIT words are `0x10100001 | MODE << 4`, with the values R218 lists; the pseudo-commands
are those lines; the other commands' words are 2, 3 and 4. That XCRYPT is ENCRYPT outside a CTR or OFB session too is the
model's own choice (log entry 17): R217 gives the pseudo-command only in those two modes. -/
def Obligations.AssembledNamedWords : Prop :=
  (∀ (m : Mode) (key iv : Bytes), assemble (asmInitDefault m key iv) = (usualInitWord m, key ++ iv)) ∧
  usualInitWord .ecb = 0x10100001 ∧ usualInitWord .cbc = 0x10100011 ∧ usualInitWord .ctr = 0x10100021 ∧
  usualInitWord .cfb = 0x10100031 ∧ usualInitWord .ofb = 0x10100041 ∧
  (∀ key iv : Bytes,
    assemble (asmExpand (.initEcb key)) = (0x10100001, key ++ List.replicate 16 0) ∧
    assemble (asmExpand (.initCbc key iv)) = (0x10100011, key ++ iv) ∧
    assemble (asmExpand (.initCtr key iv)) = (0x10100021, key ++ iv) ∧
    assemble (asmExpand (.initCfb key iv)) = (0x10100031, key ++ iv) ∧
    assemble (asmExpand (.initOfb key iv)) = (0x10100041, key ++ iv)) ∧
  (∀ msg : Bytes,
    assemble (asmExpand (.xcrypt msg)) = (0x00000002, msg) ∧ assemble (.encrypt msg) = (0x00000002, msg) ∧
    assemble (.decrypt msg) = (0x00000003, msg)) ∧
  assemble .discard = (0x00000004, [])

/-! ### Words, bytes and constants (40_wordops.md, 20_memory.md) -/

/-- R43: bit t of a left rotation is bit (t - r) mod 64 of the operand, for every r the rule admits; zero and all ones are
fixed; and the rule's example. -/
def Obligations.RotateLeftMovesBits : Prop :=
  (∀ (v : Word) (r : Nat), 0 < r → r < 64 →
    rotl v r = BitVec.ofNat 64 (v.toNat * 2 ^ r + v.toNat / 2 ^ (64 - r)) ∧
    ∀ t, t < 64 → (rotl v r).getLsbD t = v.getLsbD ((t + 64 - r) % 64)) ∧
  (∀ r, 0 < r → r < 64 → rotl 0 r = 0 ∧ rotl 0xffffffffffffffff r = 0xffffffffffffffff) ∧
  rotl 0x0123456789abcdef 8 = 0x23456789abcdef01

/-- R44, R45: bit t of a right rotation is bit (t + r) mod 64; a right rotation is the complementary left one; right
rotations compose; rotation distributes over XOR and AND. -/
def Obligations.RotateRightIdentities : Prop :=
  (∀ (v : Word) (r : Nat), 0 < r → r < 64 →
    (∀ t, t < 64 → (rotr v r).getLsbD t = v.getLsbD ((t + r) % 64)) ∧ rotr v r = rotl v (64 - r)) ∧
  (∀ (v : Word) (a b : Nat), 0 < a → 0 < b → a + b < 64 → rotr (rotr v a) b = rotr v (a + b)) ∧
  (∀ (a b : Word) (r : Nat), 0 < r → r < 64 →
    rotl (a ^^^ b) r = rotl a r ^^^ rotl b r ∧ rotl (a &&& b) r = rotl a r &&& rotl b r)

/-- R47, R48, R49, R50, R51: the constant and its identity; the packed table is the written one, its bits 62 and 63 zero;
the lookup has period 62; the variant reads z_2; z_0 and z_1 have period 31, z_2 and z_3 are z_0 and z_1
XOR (01)^31, and z_4 XOR (01)^31 has period 31. -/
def Obligations.ConstantsAsWritten : Prop :=
  keyConst.toNat = 2 ^ 64 - 4 ∧ (∀ a : Word, a ^^^ keyConst = ~~~a ^^^ 3) ∧
  (∀ (j : Fin 5) (t : Nat), t < 62 → (zPacked j).getLsbD t = (zWritten j).getMsbD t) ∧
  (∀ j : Fin 5, (zPacked j).getLsbD 62 = false ∧ (zPacked j).getLsbD 63 = false) ∧
  (∀ (j : Fin 5) (t : Nat), zbit j (t + 62) = zbit j t) ∧
  variantZ .simon128 = 2 ∧
  (∀ t : Nat, t < 31 → zbit 0 (t + 31) = zbit 0 t ∧ zbit 1 (t + 31) = zbit 1 t) ∧
  (∀ t : Nat, t < 62 → zbit 2 t = (zbit 0 t ^^ decide (t % 2 = 1)) ∧ zbit 3 t = (zbit 1 t ^^ decide (t % 2 = 1))) ∧
  (∀ t : Nat, t < 31 → (zbit 4 (t + 31) ^^ decide ((t + 31) % 2 = 1)) = (zbit 4 t ^^ decide (t % 2 = 1)))

/-- R26, R28: under LE the value `x ‖ y` is the block read as one little-endian 128-bit integer, and the key's words `k0`
and `k1` are the low and the high half of the key's. -/
def Obligations.LittleEndianBlockValue : Prop :=
  ∀ b : Block,
    (blockWords .le b).1.toNat * 2 ^ 64 + (blockWords .le b).2.toNat = ∑ t : Fin 16, b[t].toNat * 2 ^ (8 * t.val) ∧
    keyWords .le b = ((blockWords .le b).2, (blockWords .le b).1)

/-- R26, R27: under either byte order the block-to-words mapping is a bijection, with `wordsBlock` its inverse. -/
def Obligations.BlockWordsBijection : Prop :=
  ∀ o : WordByteOrder, (∀ b : Block, wordsBlock o (blockWords o b) = b) ∧ (∀ p : Pair, blockWords o (wordsBlock o p) = p)

/-- R27: BE reads the halves big-endian, `x` first, and is the byte reversal of LE: for blocks, for keys, and so for the
schedule and both block transforms. -/
def Obligations.BigEndianIsByteReversal : Prop :=
  (∀ b : Block, blockWords .be b = (be64 (b.toList.take 8), be64 (b.toList.drop 8)) ∧
    keyWords .be b = (be64 (b.toList.drop 8), be64 (b.toList.take 8))) ∧
  (∀ b : Block, blockWords .be b = blockWords .le b.reverse ∧ keyWords .be b = keyWords .le b.reverse) ∧
  (∀ (v : Variant) (key : Block), keyExpand .be v key = keyExpand .le v key.reverse) ∧
  (∀ (ks : Schedule) (b : Block),
    encryptBlock .be ks b = (encryptBlock .le ks b.reverse).reverse ∧
    decryptBlock .be ks b = (decryptBlock .le ks b.reverse).reverse)

/-- R35, R610: the counter increment is +1 mod 2^128 on MS read as a big-endian integer, byte 15 the least significant; it
is a bijection on blocks; and the rule's three corner cases. -/
def Obligations.CounterIsBigEndian : Prop :=
  (∀ ms : Block, ∑ t : Fin 16, (counterInc ms)[t].toNat * 2 ^ (8 * (15 - t.val)) =
    ((∑ t : Fin 16, ms[t].toNat * 2 ^ (8 * (15 - t.val))) + 1) % 2 ^ 128) ∧
  Function.Bijective counterInc ∧
  counterInc (blockOfBytes (List.replicate 15 0 ++ [0xff])) = blockOfBytes (List.replicate 14 0 ++ [1, 0]) ∧
  counterInc (blockOfBytes (List.replicate 8 0 ++ List.replicate 8 0xff)) =
    blockOfBytes (List.replicate 7 0 ++ [1] ++ List.replicate 8 0) ∧
  counterInc (blockOfBytes (List.replicate 16 0xff)) = blockOfBytes (List.replicate 16 0)

/-! ### Key schedule (41_key_schedule.md) -/

/-- R301, R302: the first two round keys are the master-key words in order, and each later one obeys the recurrence. -/
def Obligations.KeyScheduleRecurrence : Prop :=
  ∀ key : Block,
    (keyExpand .le .simon128 key)[0] = le64 (key.toList.take 8) ∧
    (keyExpand .le .simon128 key)[1] = le64 (key.toList.drop 8) ∧
    ∀ (i : Nat) (h : 2 ≤ i ∧ i < 68),
      (keyExpand .le .simon128 key)[i] =
        (keyExpand .le .simon128 key)[i - 2]'(by omega) ^^^
        (rotr ((keyExpand .le .simon128 key)[i - 1]'(by omega)) 3 ^^^
          rotr (rotr ((keyExpand .le .simon128 key)[i - 1]'(by omega)) 3) 1) ^^^
        0xfffffffffffffffc ^^^
        (if (zPacked 2).getLsbD ((i - 2) % 62) then 1 else 0)

/-- R303: the second equivalent form of a step, and the three groups of bits of the result, for every index. -/
def Obligations.KeyScheduleBitGroups : Prop :=
  ∀ (o : WordByteOrder) (key : Block) (i : Nat) (h : 2 ≤ i ∧ i < 68),
    let ks := keyExpand o .simon128 key
    let k2 := ks[i - 2]'(by omega)
    let k1 := ks[i - 1]'(by omega)
    ks[i] = ~~~k2 ^^^ 3 ^^^ zWord 2 (i - 2) ^^^ rotr k1 3 ^^^ rotr k1 4 ∧
    ks[i].getLsbD 0 = (k2.getLsbD 0 ^^ zbit 2 (i - 2) ^^ (rotr k1 3).getLsbD 0 ^^ (rotr k1 4).getLsbD 0) ∧
    ks[i].getLsbD 1 = (k2.getLsbD 1 ^^ (rotr k1 3).getLsbD 1 ^^ (rotr k1 4).getLsbD 1) ∧
    ∀ t, 2 ≤ t → t < 64 → ks[i].getLsbD t = !(k2.getLsbD t ^^ (rotr k1 3).getLsbD t ^^ (rotr k1 4).getLsbD t)

/-- R28, R301, R302: no key bit is dropped, and two neighbouring round keys determine the whole schedule: schedules that
agree at two neighbouring indices come from the same key. -/
def Obligations.NeighbourRoundKeysDetermineKey : Prop :=
  ∀ (o : WordByteOrder) (v : Variant) (key key' : Block) (i : Nat) (h : i + 1 < 68),
    (keyExpand o v key)[i]'(by omega) = (keyExpand o v key')[i]'(by omega) →
    (keyExpand o v key)[i + 1] = (keyExpand o v key')[i + 1] → key = key'

/-- R306, R302: the key sequencer, whatever the round-key memory and the registers held before, leaves in KS exactly
KeyExpand's words, ends at KI = 67, and touches no other register. -/
def Obligations.KeySequencerComputesKeyExpand : Prop :=
  ∀ (o : WordByteOrder) (v : Variant) (key : Block) (ks : Schedule) (r : Internal),
    keyExpandSeq o v key ks r = (keyExpand o v key, { r with ki := 67 })

/-! ### Round and block cipher (42_round_function.md, 43_block_cipher.md) -/

/-- R400, R401, R402: f and the two rounds as the rules write them, with the rules' corner cases and
examples. -/
def Obligations.RoundsAsWritten : Prop :=
  (∀ x : Word, simonF x = (rotl x 1 &&& rotl x 8) ^^^ rotl x 2) ∧
  (∀ x y k : Word, roundFwd (x, y) k = (y ^^^ simonF x ^^^ k, x) ∧ roundInv (x, y) k = (y, x ^^^ simonF y ^^^ k)) ∧
  simonF 0 = 0 ∧ simonF 0xffffffffffffffff = 0 ∧ simonF 1 = 4 ∧ simonF 0x8000000000000000 = 2 ∧
  simonF 0x0123456789abcdef = 0x06c9171725eabcbc ∧
  roundFwd (0, 0) 0 = (0, 0) ∧ roundFwd (0xffffffffffffffff, 0) 0 = (0, 0xffffffffffffffff) ∧
  roundFwd (0, 0) 0xffffffffffffffff = (0xffffffffffffffff, 0) ∧
  roundFwd (1, 2) 3 = (5, 1) ∧ roundInv (5, 1) 3 = (1, 2) ∧
  roundFwd (0x6373656420737265, 0x6c6c657661727420) 0x0706050403020100 = (0xa4c3b5e2a3dfd8f7, 0x6373656420737265) ∧
  roundInv (0xa4c3b5e2a3dfd8f7, 0x6373656420737265) 0x0706050403020100 = (0x6373656420737265, 0x6c6c657661727420)

/-- R403: each round is the exact inverse of the other, for every block and every key. -/
def Obligations.RoundsInvertEachOther : Prop :=
  ∀ (b : Pair) (k : Word), roundInv (roundFwd b k) k = b ∧ roundFwd (roundInv b k) k = b

/-- R506: under one schedule the two block transforms invert each other, for every schedule, block and byte order. -/
def Obligations.BlockTransformsInvert : Prop :=
  ∀ (o : WordByteOrder) (ks : Schedule) (b : Block),
    decryptBlock o ks (encryptBlock o ks b) = b ∧ encryptBlock o ks (decryptBlock o ks b) = b

/-- R501, R502: the rounds are applied with KS[0] first and KS[67] last when encrypting, and in the reverse order when
decrypting, 68 of them: the pair after i + 1 rounds is one round applied to the pair after i. -/
def Obligations.RoundsUseKeysInOrder : Prop :=
  ∀ (ks : Schedule) (b : Pair), ∃ (e d : Nat → Pair),
    e 0 = b ∧ encryptPair ks b = e 68 ∧ (∀ (i : Nat) (h : i < 68), e (i + 1) = roundFwd (e i) ks[i]) ∧
    d 68 = b ∧ decryptPair ks b = d 0 ∧ (∀ (i : Nat) (h : i < 68), d i = roundInv (d (i + 1)) ks[i])

/-- R503, R507: the forward sequencer, whatever its registers held before, computes encryptBlock in 68 micro-steps; it
ends at RC = 67 with the result in X and Y, and touches neither KI nor BI. -/
def Obligations.ForwardSequencerComputesEncryptBlock : Prop :=
  ∀ (o : WordByteOrder) (ks : Schedule) (b : Block) (r : Internal),
    (encryptSeq o ks b r).1 = encryptBlock o ks b ∧
    (encryptSeq o ks b r).2 =
      { r with x := (encryptPair ks (blockWords o b)).1, y := (encryptPair ks (blockWords o b)).2, rc := 67 }

/-- R504, R507: the inverse sequencer computes decryptBlock; it ends at RC = 0. -/
def Obligations.InverseSequencerComputesDecryptBlock : Prop :=
  ∀ (o : WordByteOrder) (ks : Schedule) (b : Block) (r : Internal),
    (decryptSeq o ks b r).1 = decryptBlock o ks b ∧
    (decryptSeq o ks b r).2 =
      { r with x := (decryptPair ks (blockWords o b)).1, y := (decryptPair ks (blockWords o b)).2, rc := 0 }

/-! ### Modes: what ENCRYPT and DECRYPT answer (44_mode_driver.md, 45_commands.md R703, R704) -/

/-- R602, R601, R703: ENCRYPT in an ECB session. -/
def Obligations.EcbEncryptCompletes : Prop :=
  ∀ (s : State) (c : Context) (msg : Bytes), s.ctx = some c → c.cfg.mode = .ecb → WholeBlocks msg →
    ∃ out, Answers (exec (.encrypt msg) s) s (some c) .ok out ∧ out.length = msg.length ∧
      ∀ j, j < blockCount msg → blockAt out j = encryptBlock .le c.ks (blockAt msg j)

/-- R603, R601, R704: DECRYPT in an ECB session. -/
def Obligations.EcbDecryptCompletes : Prop :=
  ∀ (s : State) (c : Context) (msg : Bytes), s.ctx = some c → c.cfg.mode = .ecb → WholeBlocks msg →
    ∃ out, Answers (exec (.decrypt msg) s) s (some c) .ok out ∧ out.length = msg.length ∧
      ∀ j, j < blockCount msg → blockAt out j = decryptBlock .le c.ks (blockAt msg j)

/-- R604, R601, R703: ENCRYPT in a CBC session: each block is XORed with the previous ciphertext block, the first with MS;
MS ends as the last ciphertext block. -/
def Obligations.CbcEncryptCompletes : Prop :=
  ∀ (s : State) (c : Context) (msg : Bytes), s.ctx = some c → c.cfg.mode = .cbc → WholeBlocks msg →
    ∃ (out : Bytes) (ms : Nat → Block),
      Answers (exec (.encrypt msg) s) s (some { c with ms := ms (blockCount msg) }) .ok out ∧
      out.length = msg.length ∧ ms 0 = c.ms ∧
      ∀ j, j < blockCount msg →
        blockAt out j = encryptBlock .le c.ks (blockXor (blockAt msg j) (ms j)) ∧ ms (j + 1) = blockAt out j

/-- R605, R601, R704: DECRYPT in a CBC session: MS becomes the input ciphertext block. -/
def Obligations.CbcDecryptCompletes : Prop :=
  ∀ (s : State) (c : Context) (msg : Bytes), s.ctx = some c → c.cfg.mode = .cbc → WholeBlocks msg →
    ∃ (out : Bytes) (ms : Nat → Block),
      Answers (exec (.decrypt msg) s) s (some { c with ms := ms (blockCount msg) }) .ok out ∧
      out.length = msg.length ∧ ms 0 = c.ms ∧
      ∀ j, j < blockCount msg →
        blockAt out j = blockXor (decryptBlock .le c.ks (blockAt msg j)) (ms j) ∧ ms (j + 1) = blockAt msg j

/-- R606, R601, R703: ENCRYPT in a CFB session. -/
def Obligations.CfbEncryptCompletes : Prop :=
  ∀ (s : State) (c : Context) (msg : Bytes), s.ctx = some c → c.cfg.mode = .cfb → WholeBlocks msg →
    ∃ (out : Bytes) (ms : Nat → Block),
      Answers (exec (.encrypt msg) s) s (some { c with ms := ms (blockCount msg) }) .ok out ∧
      out.length = msg.length ∧ ms 0 = c.ms ∧
      ∀ j, j < blockCount msg →
        blockAt out j = blockXor (blockAt msg j) (encryptBlock .le c.ks (ms j)) ∧ ms (j + 1) = blockAt out j

/-- R607, R601, R704: DECRYPT in a CFB session: the forward transform, and MS becomes the input ciphertext block. -/
def Obligations.CfbDecryptCompletes : Prop :=
  ∀ (s : State) (c : Context) (msg : Bytes), s.ctx = some c → c.cfg.mode = .cfb → WholeBlocks msg →
    ∃ (out : Bytes) (ms : Nat → Block),
      Answers (exec (.decrypt msg) s) s (some { c with ms := ms (blockCount msg) }) .ok out ∧
      out.length = msg.length ∧ ms 0 = c.ms ∧
      ∀ j, j < blockCount msg →
        blockAt out j = blockXor (blockAt msg j) (encryptBlock .le c.ks (ms j)) ∧ ms (j + 1) = blockAt msg j

/-- R608, R609, R601: ENCRYPT and DECRYPT in an OFB session: the j-th keystream block is MS encrypted j + 1 times, and MS
ends as the last keystream block. -/
def Obligations.OfbCryptCompletes : Prop :=
  ∀ (s : State) (c : Context) (msg : Bytes) (i : Instr), i = .encrypt msg ∨ i = .decrypt msg →
    s.ctx = some c → c.cfg.mode = .ofb → WholeBlocks msg →
    ∃ out, Answers (exec i s) s (some { c with ms := (encryptBlock .le c.ks)^[blockCount msg] c.ms }) .ok out ∧
      out.length = msg.length ∧
      ∀ j, j < blockCount msg →
        blockAt out j = blockXor (blockAt msg j) ((encryptBlock .le c.ks)^[j + 1] c.ms)

/-- R611, R612, R610, R601: ENCRYPT and DECRYPT in a CTR session: the j-th keystream block is the counter after j
increments, encrypted, and MS ends incremented once per block. -/
def Obligations.CtrCryptCompletes : Prop :=
  ∀ (s : State) (c : Context) (msg : Bytes) (i : Instr), i = .encrypt msg ∨ i = .decrypt msg →
    s.ctx = some c → c.cfg.mode = .ctr → WholeBlocks msg →
    ∃ out, Answers (exec i s) s (some { c with ms := counterInc^[blockCount msg] c.ms }) .ok out ∧
      out.length = msg.length ∧
      ∀ j, j < blockCount msg →
        blockAt out j = blockXor (blockAt msg j) (encryptBlock .le c.ks (counterInc^[j] c.ms))

/-- R613: in every mode, DECRYPT of an ENCRYPT's output, from any state that holds the context the ENCRYPT started from,
gives the plaintext back and leaves the same context. -/
def Obligations.EncryptThenDecryptRoundTrip : Prop :=
  ∀ (s s' : State) (c : Context) (p : Bytes), s.ctx = some c → s'.ctx = some c → WholeBlocks p →
    ∃ (ctx : Option Context) (out : Bytes),
      Answers (exec (.encrypt p) s) s ctx .ok out ∧ Answers (exec (.decrypt out) s') s' ctx .ok p

/-- R614: in CTR and OFB, ENCRYPT and DECRYPT are the same operation, and P XOR C does not depend on the data: it is the
same block for any two messages of one length. -/
def Obligations.KeystreamIndependentOfData : Prop :=
  ∀ (s : State) (c : Context) (p p' : Bytes), s.ctx = some c → c.cfg.mode = .ctr ∨ c.cfg.mode = .ofb →
    WholeBlocks p → p'.length = p.length →
    exec (.encrypt p) s = exec (.decrypt p) s ∧
    ∃ (ctx : Option Context) (out out' : Bytes),
      Answers (exec (.encrypt p) s) s ctx .ok out ∧ Answers (exec (.encrypt p') s) s ctx .ok out' ∧
      ∀ j, j < blockCount p → blockXor (blockAt p j) (blockAt out j) = blockXor (blockAt p' j) (blockAt out' j)

/-- R616: with the key, the mode and the plaintext fixed, two sessions whose MS differ give outputs that differ in every
block, in CBC, CFB, OFB and CTR. -/
def Obligations.ChangedIvChangesEveryBlock : Prop :=
  ∀ (s s' : State) (c : Context) (ms : Block) (p : Bytes), s.ctx = some c → s'.ctx = some { c with ms := ms } →
    c.cfg.mode ≠ .ecb → ms ≠ c.ms → WholeBlocks p →
    ∃ (ctx ctx' : Option Context) (out out' : Bytes),
      Answers (exec (.encrypt p) s) s ctx .ok out ∧ Answers (exec (.encrypt p) s') s' ctx' .ok out' ∧
      ∀ j, j < blockCount p → blockAt out j ≠ blockAt out' j

/-- R909: a message of whole blocks may be split at any block boundary: one command gives the concatenated output and the
same context as two. For ENCRYPT and for DECRYPT. -/
def Obligations.SplitMessageSameOutput : Prop :=
  ∀ (s : State) (c : Context) (m1 m2 : Bytes) (cmd : Bytes → Instr), cmd = .encrypt ∨ cmd = .decrypt →
    s.ctx = some c → WholeBlocks m1 → WholeBlocks m2 →
    ∃ (t1 : State) (ctx1 ctx2 : Option Context) (out1 out2 : Bytes),
      exec (cmd m1) s = .next t1 ∧ Answers (exec (cmd m1) s) s ctx1 .ok out1 ∧
      Answers (exec (cmd m2) t1) t1 ctx2 .ok out2 ∧
      Answers (exec (cmd (m1 ++ m2)) s) s ctx2 .ok (out1 ++ out2)

/-- R601, R507: the mode driver's block loop over the sequencers, with BI counting the blocks and MemRead and MemWrite at
offset 16 BI, computes ModeRun, whatever the registers held before. The last clause, that BI ends as the number of blocks,
is the model's own choice (log entries 10 and 16): R21 and R601 step BI from 0 to N - 1 and give it no value afterwards. -/
def Obligations.DriverSequencerComputesModeRun : Prop :=
  ∀ (o : WordByteOrder) (dir : Dir) (c : Context) (msg : Bytes) (r : Internal),
    (driverSeq o dir c msg r).1 = (modeRun o dir c msg).1 ∧
    (driverSeq o dir c msg r).2.1 = (modeRun o dir c msg).2 ∧
    (driverSeq o dir c msg r).2.2.bi = blockCount msg

/-! ### Commands and errors (45_commands.md, 60_exceptions.md) -/

/-- R702: a supported INIT, from any state, builds the context whole: the configuration, the key's schedule, the IV in MS
(ECB's too), STATUS `0x10 | mode << 5`, no output. The old context plays no part. -/
def Obligations.InitBuildsContext : Prop :=
  ∀ (s : State) (m : Mode) (key iv : Bytes), key.length = 16 → iv.length = 16 →
    Answers (exec (.init (modeBits m) 0 16 16 key iv) s) s
      (some { cfg := { variant := .simon128, mode := m, keySize := 128, blockSize := 128, roundLimit := 68, zSeq := 2 }
              ks := keyExpand .le .simon128 (blockOfBytes key), ms := blockOfBytes iv }) .ok [] ∧
    ∀ t, exec (.init (modeBits m) 0 16 16 key iv) s = .next t →
      t.status = (0x10 : CmdWord) ||| ((modeBits m).zeroExtend 32 <<< 5)

/-- R802, R702: INIT answers CONFIG_ERROR exactly for an unsupported variant, an inconsistent size or a mode over 4, and
the context that existed stays. -/
def Obligations.InitConfigError : Prop :=
  ∀ (s : State) (mode : BitVec 3) (variant : BitVec 4) (keyBytes blockBytes : BitVec 8) (key iv : Bytes),
    key.length = 16 → iv.length = 16 →
    (Answers (exec (.init mode variant keyBytes blockBytes key iv) s) s s.ctx .configError [] ↔
      (variant ≠ 0 ∨ keyBytes ≠ 16 ∨ blockBytes ≠ 16 ∨ 4 < mode.toNat))

/-- R803, R806: without a context ENCRYPT and DECRYPT answer NOT_INITIALIZED, whatever the message's length. -/
def Obligations.CryptNotInitialized : Prop :=
  ∀ (s : State) (msg : Bytes), s.ctx = none →
    Answers (exec (.encrypt msg) s) s none .notInitialized [] ∧
    Answers (exec (.decrypt msg) s) s none .notInitialized [] ∧
    statusWord none .notInitialized = 0x00000003

/-- R804, R617: with a context, ENCRYPT and DECRYPT answer LENGTH_ERROR (code 2) exactly for a length that is not a multiple
of 16, in every mode, the zero length thus not among them; the context stays, and no output is given for the whole blocks
before the end. -/
def Obligations.CryptLengthError : Prop :=
  ∀ (s : State) (c : Context) (msg : Bytes), s.ctx = some c →
    (Answers (exec (.encrypt msg) s) s (some c) .lengthError [] ↔ msg.length % 16 ≠ 0) ∧
    (Answers (exec (.decrypt msg) s) s (some c) .lengthError [] ↔ msg.length % 16 ≠ 0) ∧
    statusResultField (statusWord (some c) .lengthError) = 2

/-- R707: a zero-length message on an initialized core is OK with empty output and MS unchanged, in every mode; without a
context it is NOT_INITIALIZED. -/
def Obligations.ZeroLengthMessage : Prop :=
  (∀ (s : State) (c : Context), s.ctx = some c →
    Answers (exec (.encrypt []) s) s (some c) .ok [] ∧ Answers (exec (.decrypt []) s) s (some c) .ok []) ∧
  (∀ s : State, s.ctx = none →
    Answers (exec (.encrypt []) s) s none .notInitialized [] ∧ Answers (exec (.decrypt []) s) s none .notInitialized [])

/-- R705: DISCARD, from any state, answers OK with STATUS zero and leaves INIT_FLAG 0 and no CFG, KS or MS; without a
context it changes nothing but STATUS; an ENCRYPT after it is NOT_INITIALIZED. -/
def Obligations.DiscardEndsSession : Prop :=
  ∀ s : State, Answers (exec .discard s) s none .ok [] ∧ statusWord none .ok = 0x00000000 ∧
    ∀ t, exec .discard s = .next t →
      t.initFlag = 0 ∧ t.cfg? = none ∧ t.ks? = none ∧ t.ms? = none ∧ (s.ctx = none → t.ctx = s.ctx) ∧
      ∀ msg, Answers (exec (.encrypt msg) t) t none .notInitialized []

/-- R706: a command that decodes as Illegal is answered with ILLEGAL_COMMAND and no output, and changes nothing but STATUS;
in a CBC session that status is 0x34, as in the rule's example with the word 5. -/
def Obligations.IllegalCommandAnswered : Prop :=
  ∀ (s : State) (cw : CmdWord) (payload : Bytes) (rest : List HostEvent) (why : Reject),
    s.inputs = .command cw payload :: rest → decode cw payload = .illegal why →
    Answers (step s) { s with inputs := rest } s.ctx .illegalCommand [] ∧
    (∀ c, s.ctx = some c → c.cfg.mode = .cbc → statusWord s.ctx .illegalCommand = 0x00000034) ∧
    decode 0x00000005 [] = .illegal .unassignedOp

/-- R708, R703: under a realisation's bound, a message of whole blocks that exceeds it is refused, and one within it is
not; under the default parameters no command is refused. -/
def Obligations.OversizeMessageRefused : Prop :=
  (∀ (P : Params) (s : State) (c : Context) (dir : Dir) (msg : Bytes) (bound : Nat), s.ctx = some c → WholeBlocks msg →
    P.maxMessageBytes = some bound →
    (cryptUnder P dir msg s = .refused (.messageTooLong msg.length) ↔ bound < msg.length)) ∧
  (∀ (i : Instr) (s : State) (r : Refusal), exec i s ≠ .refused r)

/-- R805: after any command that ends in an error, INIT_FLAG, CFG, KS and MS are as before, and no output was given. -/
def Obligations.ErrorsArePrecise : Prop :=
  ∀ (s t : State) (cw : CmdWord) (payload : Bytes) (rest : List HostEvent),
    s.inputs = .command cw payload :: rest → step s = .next t → statusResultField t.status ≠ 0 →
    t.ctx = s.ctx ∧ t.inputs = rest ∧ t.responses = s.responses ++ [{ sw := t.status, out := [] }]

/-- R700, R701, R200: every command, whatever the state, is answered: one step gives a next state with exactly one more
response, which carries STATUS, and STATUS is status(code) of the state after all other writes; output comes only with code = OK and
only from ENCRYPT and DECRYPT. -/
def Obligations.EveryCommandAnswered : Prop :=
  ∀ (s : State) (cw : CmdWord) (payload : Bytes) (rest : List HostEvent), s.inputs = .command cw payload :: rest →
    ∃ (t : State) (code : ResultCode) (out : Bytes), step s = .next t ∧ t.inputs = rest ∧
      t.status = statusWord t.ctx code ∧ t.responses = s.responses ++ [{ sw := t.status, out := out }] ∧
      (out ≠ [] → code = .ok ∧ (cw = 0x00000002 ∨ cw = 0x00000003))

/-- R210, R211, R17: the fields of the status word: RESULT is the code, INIT the flag, MODE the mode or 0, the rest 0; and
every instruction leaves such a word in STATUS. -/
def Obligations.StatusFields : Prop :=
  (∀ (ctx : Option Context) (code : ResultCode),
    statusResultField (statusWord ctx code) = resultBits code ∧
    statusInitField (statusWord ctx code) = initBit ctx ∧
    statusModeField (statusWord ctx code) = statusMode ctx ∧
    statusReservedField (statusWord ctx code) = 0) ∧
  (∀ (i : Instr) (s t : State), exec i s = .next t → ∃ code, t.status = statusWord t.ctx code)

/-! ### The whole machine (10_state.md, 70_reset_and_hazards.md) -/

/-- R700: a step performs the command at the port: it is exec of the decoded instruction, the event taken off the port. -/
def Obligations.StepRunsDecoded : Prop :=
  ∀ (s : State) (cw : CmdWord) (payload : Bytes) (rest : List HostEvent) (i : Instr),
    s.inputs = .command cw payload :: rest → decode cw payload = .ok i →
    step s = exec i { s with inputs := rest }

/-- R818, R900, R901: with nothing issued the core holds its state; a reset event gives INIT_FLAG = 0, no CFG, KS or MS,
STATUS zero, and no response. The host's later events are untouched. The first clause, an idle step that gives exactly the
same state, is the model's own choice (log entry 1, and entry 6 for the counter): R818 says only that the architectural
state is held, and R23 leaves X, Y, RC, KI and BI unspecified. -/
def Obligations.IdleAndReset : Prop :=
  (∀ s : State, s.inputs = [] → step s = .next s) ∧
  (∀ (s : State) (rest : List HostEvent), s.inputs = .reset :: rest →
    ∃ t, step s = .next t ∧ t.ctx = none ∧ t.initFlag = 0 ∧ t.status = 0x00000000 ∧ t.responses = s.responses ∧
      t.inputs = rest)

/-- R24, R901: the state after reset: INIT_FLAG 0, no CFG, KS or MS, STATUS zero. -/
def Obligations.ResetValues : Prop :=
  State.reset.initFlag = 0 ∧ State.reset.cfg? = none ∧ State.reset.ks? = none ∧ State.reset.ms? = none ∧
  State.reset.status = 0x00000000

/-- R902: the response status of each command issued in a state without a context. -/
def Obligations.ResponsesAfterReset : Prop :=
  ∀ (s t : State) (cw : CmdWord) (payload : Bytes) (rest : List HostEvent), s.ctx = none →
    s.inputs = .command cw payload :: rest → step s = .next t →
    (∀ (m : Mode) (key iv : Bytes), decode cw payload = .ok (.init (modeBits m) 0 16 16 key iv) →
      t.status = (0x10 : CmdWord) ||| ((modeBits m).zeroExtend 32 <<< 5) ∧ t.initFlag = 1) ∧
    (∀ (mode : BitVec 3) (variant : BitVec 4) (kb bb : BitVec 8) (key iv : Bytes),
      decode cw payload = .ok (.init mode variant kb bb key iv) →
      variant ≠ 0 ∨ kb ≠ 16 ∨ bb ≠ 16 ∨ 4 < mode.toNat → t.status = 0x00000001 ∧ t.ctx = none) ∧
    (decode cw payload = .ok (.encrypt payload) ∨ decode cw payload = .ok (.decrypt payload) →
      t.status = 0x00000003 ∧ t.ctx = none) ∧
    (decode cw payload = .ok .discard → t.status = 0x00000000 ∧ t.ctx = none) ∧
    (∀ why, decode cw payload = .illegal why → t.status = 0x00000004 ∧ t.ctx = none)

/-- R25, R709, R903: in a session, one step keeps CFG and KS, and MS too unless it ran an ENCRYPT or DECRYPT of at least
one block in a mode other than ECB; it ends the session only by reset, by DISCARD, or by an INIT that answers OK. -/
def Obligations.SessionKeptByStep : Prop :=
  ∀ (s t : State) (c : Context), s.ctx = some c → step s = .next t →
    t.ctx = some c ∨
    (∃ (cw : CmdWord) (msg : Bytes) (rest : List HostEvent) (ms : Block),
      s.inputs = .command cw msg :: rest ∧ (cw = 0x00000002 ∨ cw = 0x00000003) ∧ 16 ≤ msg.length ∧
      c.cfg.mode ≠ .ecb ∧ t.ctx = some { c with ms := ms }) ∨
    (t.ctx = none ∧ ∃ rest, s.inputs = .reset :: rest ∨ s.inputs = .command 0x00000004 [] :: rest) ∨
    (∃ (cw : CmdWord) (payload : Bytes) (rest : List HostEvent),
      s.inputs = .command cw payload :: rest ∧ cw.toNat % 16 = 1 ∧ statusResultField t.status = 0)

/-- The invariant holds at reset. -/
def Obligations.InvariantAtReset : Prop := State.Inv State.reset

/-- R14, R15, R17, R302, R701, R210: every step keeps the invariant: a context is one INIT can have built, with a schedule
that obeys the recurrence; STATUS is status(code) of the present context; every response is one R701 allows. -/
def Obligations.InvariantKeptByStep : Prop :=
  ∀ s t : State, s.Inv → step s = .next t → t.Inv

/-- R23, R710: the internal registers are not observable: two states that differ only in them give the same observation
after any number of steps. -/
def Obligations.InternalRegistersUnobservable : Prop :=
  ∀ (n : Nat) (s t : State), SameVisible s t →
    SameOutcome (step s) (step t) ∧ observe n s = observe n t

/-- R17, R810: STATUS is read by nothing inside the core: a command's whole effect is the same whatever STATUS held. -/
def Obligations.StatusNeverRead : Prop :=
  ∀ (s : State) (sw cw : CmdWord) (payload : Bytes) (rest : List HostEvent),
    s.inputs = .command cw payload :: rest → step { s with status := sw } = step s

/-- R705, R901: once a session is discarded or the core is reset, nothing the host can observe, however long the run,
depends on the context or STATUS it held. -/
def Obligations.NoResidueAfterDiscardOrReset : Prop :=
  ∀ (n : Nat) (s s' t t' : State), s.inputs = s'.inputs → s.responses = s'.responses →
    (∃ rest, s.inputs = .reset :: rest ∨ s.inputs = .command 0x00000004 [] :: rest) →
    step s = .next t → step s' = .next t' → observe n t = observe n t'

/-- R702, R907: after an INIT that answers OK, nothing the host can observe depends on what the core held before it. -/
def Obligations.InitReplacesContextWhole : Prop :=
  ∀ (n : Nat) (s s' t t' : State) (cw : CmdWord) (payload : Bytes) (rest : List HostEvent),
    s.inputs = .command cw payload :: rest → s'.inputs = s.inputs → s.responses = s'.responses →
    cw.toNat % 16 = 1 → step s = .next t → step s' = .next t' → statusResultField t.status = 0 →
    observe n t = observe n t'
end

