-- ==== Sys2Proof/Laws/Bytes.lean ====
section
/-! SUPPORT. The byte-string, block and message operations: lengths, elements, and the shape of `runBlocks`. -/

namespace Sys2Proof.Machine

@[simp] theorem toLE_length (n : Nat) : ∀ v, (toLE n v).length = n := by
  induction n with
  | zero => intro v; rfl
  | succ n ih => intro v; simp [toLE, ih]

@[simp] theorem toBE_length (n v : Nat) : (toBE n v).length = n := by simp [toBE]

/-- An `n`-byte string as an integer is below 256^n. -/
theorem leNat_lt (bs : Bytes) : leNat bs < 256 ^ bs.length := by
  induction bs with
  | nil => simp [leNat]
  | cons b bs ih =>
    have hb := b.isLt
    simp only [leNat, List.length_cons, Nat.pow_succ]
    omega

/-- The low `n` bytes of an integer hold its remainder modulo 256^n. -/
theorem leNat_toLE (n : Nat) : ∀ v, leNat (toLE n v) = v % 256 ^ n := by
  induction n with
  | zero => intro v; simp [toLE, leNat, Nat.mod_one]
  | succ n ih =>
    intro v
    rw [toLE, leNat, ih, Nat.pow_succ, Nat.mul_comm (256 ^ n) 256, Nat.mod_mul]
    simp

/-- A byte string is the little-endian form of its own integer. -/
theorem toLE_leNat (bs : Bytes) : toLE bs.length (leNat bs) = bs := by
  induction bs with
  | nil => rfl
  | cons b bs ih =>
    have hb : (b.toNat + 256 * leNat bs) / 256 = leNat bs := by have := b.isLt; omega
    have hl : BitVec.ofNat 8 (b.toNat + 256 * leNat bs) = b := by
      apply BitVec.eq_of_toNat_eq
      have := b.isLt
      simp only [BitVec.toNat_ofNat]
      omega
    simp only [List.length_cons, toLE, leNat, hb, hl, ih]

@[simp] theorem blockOfBytes_get (bs : Bytes) (i : Nat) (h : i < 16) : (blockOfBytes bs)[i] = bs.getD i 0 := by
  simp [blockOfBytes]

/-- A block is the block of its own bytes. -/
@[simp] theorem blockOfBytes_toList (b : Block) : blockOfBytes b.toList = b := by
  apply Vector.ext
  intro i hi
  simp [hi]

/-- A 16-byte string's block has those bytes. -/
theorem toList_blockOfBytes (bs : Bytes) (h : bs.length = 16) : (blockOfBytes bs).toList = bs := by
  apply List.ext_getElem
  · simp [h]
  · intro i h1 h2
    simp [h2]

@[simp] theorem blockXor_get (p q : Block) (i : Nat) (h : i < 16) : (blockXor p q)[i] = p[i] ^^^ q[i] := by
  simp [blockXor]

@[simp] theorem memRead_length (bs : Bytes) (addr n : Nat) : (memRead bs addr n).length = min n (bs.length - addr) := by
  simp [memRead]

@[simp] theorem messageBlocks_length (msg : Bytes) : (messageBlocks msg).length = msg.length / 16 := by
  simp [messageBlocks]

@[simp] theorem joinBlocks_nil : joinBlocks [] = [] := rfl

@[simp] theorem joinBlocks_cons (b : Block) (bs : List Block) : joinBlocks (b :: bs) = b.toList ++ joinBlocks bs := rfl

/-- The blocks of an output string number 16 bytes each. -/
@[simp] theorem joinBlocks_length (bs : List Block) : (joinBlocks bs).length = 16 * bs.length := by
  induction bs with
  | nil => rfl
  | cons b bs ih => simp only [joinBlocks_cons, List.length_append, Vector.length_toList, ih, List.length_cons]; omega

@[simp] theorem runBlocks_nil (step : Block → Block → Block × Block) (ms : Block) :
    runBlocks step [] ms = ([], ms) := rfl

theorem runBlocks_cons (step : Block → Block → Block × Block) (b : Block) (bs : List Block) (ms : Block) :
    runBlocks step (b :: bs) ms =
      ((step b ms).1 :: (runBlocks step bs (step b ms).2).1, (runBlocks step bs (step b ms).2).2) := rfl

/-- One output block per input block (R36). -/
@[simp] theorem runBlocks_length (step : Block → Block → Block × Block) (bs : List Block) :
    ∀ ms, (runBlocks step bs ms).1.length = bs.length := by
  induction bs with
  | nil => intro ms; rfl
  | cons b bs ih => intro ms; simp [runBlocks_cons, ih]

/-- A run over two lists of blocks is the run over the first and then, from the MS it left, over the second (R908). -/
theorem runBlocks_append (step : Block → Block → Block × Block) (as bs : List Block) :
    ∀ ms, runBlocks step (as ++ bs) ms =
      ((runBlocks step as ms).1 ++ (runBlocks step bs (runBlocks step as ms).2).1,
        (runBlocks step bs (runBlocks step as ms).2).2) := by
  induction as with
  | nil => intro ms; simp
  | cons a as ih => intro ms; simp [runBlocks_cons, ih]

end Sys2Proof.Machine
end

