-- ==== Sys2Proof/Laws/State.lean ====
section
/-! SUPPORT. One lemma per field per update: what each named operation leaves in each field of State. -/

namespace Sys2Proof.Machine

/-! `setContext` writes the context only. -/

@[simp] theorem setContext_ctx (s : State) (c : Context) : (s.setContext c).ctx = some c := rfl
@[simp] theorem setContext_status (s : State) (c : Context) : (s.setContext c).status = s.status := rfl
@[simp] theorem setContext_internal (s : State) (c : Context) : (s.setContext c).internal = s.internal := rfl
@[simp] theorem setContext_inputs (s : State) (c : Context) : (s.setContext c).inputs = s.inputs := rfl
@[simp] theorem setContext_responses (s : State) (c : Context) : (s.setContext c).responses = s.responses := rfl
@[simp] theorem setContext_free (s : State) (c : Context) : (s.setContext c).free = s.free := rfl

/-! `clearContext` writes the context only. -/

@[simp] theorem clearContext_ctx (s : State) : s.clearContext.ctx = none := rfl
@[simp] theorem clearContext_status (s : State) : s.clearContext.status = s.status := rfl
@[simp] theorem clearContext_internal (s : State) : s.clearContext.internal = s.internal := rfl
@[simp] theorem clearContext_inputs (s : State) : s.clearContext.inputs = s.inputs := rfl
@[simp] theorem clearContext_responses (s : State) : s.clearContext.responses = s.responses := rfl
@[simp] theorem clearContext_free (s : State) : s.clearContext.free = s.free := rfl

/-! `respond` writes STATUS, adds the response, and frees the internal registers. -/

@[simp] theorem respond_ctx (code : ResultCode) (out : Bytes) (s : State) : (respond code out s).ctx = s.ctx := rfl
@[simp] theorem respond_status (code : ResultCode) (out : Bytes) (s : State) :
    (respond code out s).status = statusWord s.ctx code := rfl
@[simp] theorem respond_internal (code : ResultCode) (out : Bytes) (s : State) :
    (respond code out s).internal = freeInternal s.free := rfl
@[simp] theorem respond_inputs (code : ResultCode) (out : Bytes) (s : State) :
    (respond code out s).inputs = s.inputs := rfl
@[simp] theorem respond_responses (code : ResultCode) (out : Bytes) (s : State) :
    (respond code out s).responses = s.responses ++ [{ sw := statusWord s.ctx code, out := out }] := rfl
@[simp] theorem respond_free (code : ResultCode) (out : Bytes) (s : State) :
    (respond code out s).free = s.free + 1 := rfl

/-! `raise` is `respond` with no output. -/

@[simp] theorem raise_ctx (code : ResultCode) (s : State) : (raise code s).ctx = s.ctx := rfl
@[simp] theorem raise_status (code : ResultCode) (s : State) : (raise code s).status = statusWord s.ctx code := rfl
@[simp] theorem raise_internal (code : ResultCode) (s : State) : (raise code s).internal = freeInternal s.free := rfl
@[simp] theorem raise_inputs (code : ResultCode) (s : State) : (raise code s).inputs = s.inputs := rfl
@[simp] theorem raise_responses (code : ResultCode) (s : State) :
    (raise code s).responses = s.responses ++ [{ sw := statusWord s.ctx code, out := [] }] := rfl
@[simp] theorem raise_free (code : ResultCode) (s : State) : (raise code s).free = s.free + 1 := rfl

/-! `applyReset` writes the context, STATUS and the internal registers. -/

@[simp] theorem applyReset_ctx (s : State) : (applyReset s).ctx = none := rfl
@[simp] theorem applyReset_status (s : State) : (applyReset s).status = 0x00000000 := rfl
@[simp] theorem applyReset_internal (s : State) : (applyReset s).internal = Internal.reset := rfl
@[simp] theorem applyReset_inputs (s : State) : (applyReset s).inputs = s.inputs := rfl
@[simp] theorem applyReset_responses (s : State) : (applyReset s).responses = s.responses := rfl
@[simp] theorem applyReset_free (s : State) : (applyReset s).free = s.free := rfl

/-! `accept` takes one event off the port. -/

@[simp] theorem accept_ctx (s : State) : (accept s).ctx = s.ctx := rfl
@[simp] theorem accept_status (s : State) : (accept s).status = s.status := rfl
@[simp] theorem accept_internal (s : State) : (accept s).internal = s.internal := rfl
@[simp] theorem accept_inputs (s : State) : (accept s).inputs = s.inputs.tail := rfl
@[simp] theorem accept_responses (s : State) : (accept s).responses = s.responses := rfl
@[simp] theorem accept_free (s : State) : (accept s).free = s.free := rfl

/-! `issue` puts one event on the port. -/

@[simp] theorem issue_inputs (cw : CmdWord) (payload : Bytes) (s : State) :
    (issue cw payload s).inputs = .command cw payload :: s.inputs := rfl

/-- Accepting what was just issued gives the state back. -/
@[simp] theorem accept_issue (cw : CmdWord) (payload : Bytes) (s : State) : accept (issue cw payload s) = s := rfl

/-! The accessors. -/

@[simp] theorem initFlag_of_none (s : State) (h : s.ctx = none) : s.initFlag = 0 := by
  simp [State.initFlag, initBit, h]

@[simp] theorem initFlag_of_some (s : State) (c : Context) (h : s.ctx = some c) : s.initFlag = 1 := by
  simp [State.initFlag, initBit, h]

end Sys2Proof.Machine
end

