-- ==== Sys2Proof/Laws/Ops.lean ====
section
/-! SUPPORT. What each shared operation and the step can do, once: later proofs cite these instead of unfolding. -/

namespace Sys2Proof.Machine

/-- Completing a command from a state whose responses and events are those of `s` answers the command issued in `s`. -/
theorem answers_respond {s s' : State} (code : ResultCode) (out : Bytes) (hr : s'.responses = s.responses)
    (hi : s'.inputs = s.inputs) : Answers (.next (respond code out s')) s s'.ctx code out :=
  ⟨_, rfl, rfl, rfl, by simp [hr], by simp [hi]⟩

/-- Raising an error answers the command with that error and leaves the context (R805). -/
theorem answers_raise (code : ResultCode) (s : State) : Answers (.next (raise code s)) s s.ctx code [] :=
  answers_respond code [] rfl rfl

/-- What INIT can do (R702): raise CONFIG_ERROR, build the context, or, for a term decode never gives, raise
ILLEGAL_COMMAND. -/
theorem initUnder_cases (P : Params) (mode : BitVec 3) (variant : BitVec 4) (kb bb : BitVec 8) (key iv : Bytes)
    (s : State) :
    (initPayloadOk key iv = false ∧
      initUnder P mode variant kb bb key iv s = .next (raise .illegalCommand s)) ∨
    (initPayloadOk key iv = true ∧ initCfg mode variant kb bb = none ∧
      initUnder P mode variant kb bb key iv s = .next (raise .configError s)) ∨
    (initPayloadOk key iv = true ∧ ∃ cfg, initCfg mode variant kb bb = some cfg ∧
      initUnder P mode variant kb bb key iv s = .next (respond .ok [] (s.setContext
        { cfg := cfg, ks := keyExpand P.wordByteOrder cfg.variant (blockOfBytes key), ms := blockOfBytes iv }))) := by
  unfold initUnder
  cases hp : initPayloadOk key iv with
  | false => exact .inl ⟨rfl, rfl⟩
  | true =>
    cases hc : initCfg mode variant kb bb with
    | none => exact .inr (.inl ⟨rfl, rfl, rfl⟩)
    | some cfg => exact .inr (.inr ⟨rfl, cfg, rfl, rfl⟩)

/-- What ENCRYPT and DECRYPT can do (R703, R704): the two errors in their order of priority, the refusal, or the run. -/
theorem cryptUnder_cases (P : Params) (dir : Dir) (msg : Bytes) (s : State) :
    (s.ctx = none ∧ cryptUnder P dir msg s = .next (raise .notInitialized s)) ∨
    (∃ c, s.ctx = some c ∧
      ((lengthAdmitted P.partialPolicy msg.length = false ∧
          cryptUnder P dir msg s = .next (raise .lengthError s)) ∨
       (lengthAdmitted P.partialPolicy msg.length = true ∧ withinBound P.maxMessageBytes msg.length = false ∧
          cryptUnder P dir msg s = .refused (.messageTooLong msg.length)) ∨
       (lengthAdmitted P.partialPolicy msg.length = true ∧ withinBound P.maxMessageBytes msg.length = true ∧
          cryptUnder P dir msg s = .next (respond .ok (modeRun P.wordByteOrder dir c msg).1
            (s.setContext { c with ms := (modeRun P.wordByteOrder dir c msg).2 }))))) := by
  unfold cryptUnder
  cases hc : s.ctx with
  | none => exact .inl ⟨rfl, rfl⟩
  | some c =>
    refine .inr ⟨c, rfl, ?_⟩
    cases hl : lengthAdmitted P.partialPolicy msg.length with
    | false => exact .inl ⟨rfl, rfl⟩
    | true =>
      cases hb : withinBound P.maxMessageBytes msg.length with
      | false => exact .inr (.inl ⟨rfl, rfl, rfl⟩)
      | true => exact .inr (.inr ⟨rfl, rfl, rfl⟩)

/-- The default parameters reject exactly the lengths that are not whole blocks (R6). -/
@[simp] theorem lengthAdmitted_reject (n : Nat) : lengthAdmitted .reject n = true ↔ n % 16 = 0 := by
  simp [lengthAdmitted]

/-- The default parameters bound no message (R6). -/
@[simp] theorem withinBound_default (n : Nat) : withinBound Config.params.maxMessageBytes n = true := rfl

/-- What an instruction can leave: an error raised, which writes nothing but STATUS, its response and the internal registers;
a completed INIT, ENCRYPT or DECRYPT, which also writes a context; or a completed DISCARD. -/
theorem exec_next_cases {i : Instr} {s t : State} (h : exec i s = .next t) :
    (∃ code, code ≠ .ok ∧ t = raise code s) ∨
    (∃ c out, t = respond .ok out (s.setContext c)) ∨
    (i = .discard ∧ t = respond .ok [] s.clearContext) := by
  have crypt : ∀ dir msg, cryptUnder Config.params dir msg s = .next t →
      (∃ code, code ≠ .ok ∧ t = raise code s) ∨ (∃ c out, t = respond .ok out (s.setContext c)) := by
    intro dir msg h
    obtain ⟨_, h'⟩ | ⟨c, _, ⟨_, h'⟩ | ⟨_, hb, _⟩ | ⟨_, _, h'⟩⟩ := cryptUnder_cases Config.params dir msg s
    · cases h'.symm.trans h; exact .inl ⟨_, by simp, rfl⟩
    · cases h'.symm.trans h; exact .inl ⟨_, by simp, rfl⟩
    · simp at hb
    · cases h'.symm.trans h; exact .inr ⟨_, _, rfl⟩
  cases i with
  | init m v kb bb key iv =>
    obtain ⟨_, h'⟩ | ⟨_, _, h'⟩ | ⟨_, _, _, h'⟩ := initUnder_cases Config.params m v kb bb key iv s
    · cases h'.symm.trans h; exact .inl ⟨_, by simp, rfl⟩
    · cases h'.symm.trans h; exact .inl ⟨_, by simp, rfl⟩
    · cases h'.symm.trans h; exact .inr (.inl ⟨_, _, rfl⟩)
  | encrypt msg => exact (crypt .enc msg h).imp_right .inl
  | decrypt msg => exact (crypt .dec msg h).imp_right .inl
  | discard => cases h; exact .inr (.inr ⟨rfl, rfl⟩)

/-- What one step can do, by what the port gives. -/
theorem step_cases (s : State) :
    (fetch s = .idle ∧ step s = .next s) ∨
    (fetch s = .reset ∧ step s = .next (applyReset (accept s))) ∨
    (∃ i, fetch s = .instr i ∧ step s = exec i (accept s)) ∨
    (∃ why, fetch s = .illegal why ∧ step s = .next (raise .illegalCommand (accept s))) := by
  unfold step
  cases h : fetch s with
  | idle => exact .inl ⟨rfl, rfl⟩
  | reset => exact .inr (.inl ⟨rfl, rfl⟩)
  | instr i => exact .inr (.inr (.inl ⟨i, rfl, rfl⟩))
  | illegal why => exact .inr (.inr (.inr ⟨why, rfl, rfl⟩))

/-- What the port gives, by the host's next event. -/
theorem fetch_command (s : State) (cw : CmdWord) (payload : Bytes) (rest : List HostEvent)
    (h : s.inputs = .command cw payload :: rest) : fetch s = fetchCommand cw payload := by
  simp [fetch, h]

end Sys2Proof.Machine
end

