-- ==== Sys2Proof/Laws/PerInstr.lean ====
section
/-! SUPPORT. Facts about the syntax of every instruction, one lemma per constructor of Instr. -/

/-- The command word the encoder writes lies under the row of the opcode table that is named for the instruction (R209). -/
def Sys2Proof.Laws.EncodedUnderRow.Statement (i : Sys2Proof.Instr) : Prop :=
  ∃ r ∈ Sys2Proof.opcodeTable, r.covers (Sys2Proof.encode i).1 = true ∧ r.mnemonic = i.mnemonic

namespace Sys2Proof.Laws

/-- Every INIT word has OP 1 and its reserved bits clear, whatever its fields hold (R203). -/
theorem encodeInitWord_under_mask (mode : BitVec 3) (variant : BitVec 4) (kb bb : BitVec 8) :
    encodeInitWord mode variant kb bb &&& 0x0000F08F = 0x00000001 := by
  apply BitVec.eq_of_getLsbD_eq
  intro t ht
  unfold encodeInitWord
  interval_cases t <;> simp

theorem EncodedUnderRow.init (mode : BitVec 3) (variant : BitVec 4) (kb bb : BitVec 8) (key iv : Bytes) :
    EncodedUnderRow.Statement (.init mode variant kb bb key iv) :=
  ⟨_, .head _, beq_iff_eq.mpr (encodeInitWord_under_mask mode variant kb bb), rfl⟩

theorem EncodedUnderRow.encrypt (msg : Bytes) : EncodedUnderRow.Statement (.encrypt msg) :=
  ⟨_, .tail _ (.head _), by simp [OpcodeRow.covers, encode], rfl⟩

theorem EncodedUnderRow.decrypt (msg : Bytes) : EncodedUnderRow.Statement (.decrypt msg) :=
  ⟨_, .tail _ (.tail _ (.head _)), by simp [OpcodeRow.covers, encode], rfl⟩

theorem EncodedUnderRow.discard : EncodedUnderRow.Statement .discard :=
  ⟨_, .tail _ (.tail _ (.tail _ (.head _))), by decide, rfl⟩

end Sys2Proof.Laws
end

