-- ==== Sys2Proof/Tests/Slice0.lean ====
section
/-! SUPPORT. The model's own tests: WellFormed smoke, decoding of written words, the spec's vectors (95_test_vectors.md, named
by their ids V<n>), one step each on small states, and a witness for the hypotheses of each statement. -/

namespace Sys2Proof.Tests

open Sys2Proof Sys2Proof.Machine

/-- The key bytes `00 01 … 0f` of the spec's vectors. -/
def katKey : Bytes := toBE 16 0x000102030405060708090a0b0c0d0e0f

/-- The IV `f0 f1 … ff`. -/
def katIv : Bytes := toBE 16 0xf0f1f2f3f4f5f6f7f8f9fafbfcfdfeff

/-- The plaintext block P0. -/
def p0 : Bytes := toBE 16 0x2074726176656c6c6572732064657363

/-- The context of `INIT <m>, key=K, iv=V`. -/
def katContext (m : Mode) : Context :=
  { cfg := cfgFor .simon128 m, ks := keyExpand .le .simon128 (blockOfBytes katKey), ms := blockOfBytes katIv }

/-- A session in mode `m`. -/
def session (m : Mode) : State :=
  { State.reset with ctx := some (katContext m), status := statusWord (some (katContext m)) .ok }

/-- A state whose host issues one command. -/
def issued (cw : CmdWord) (payload : Bytes) (s : State) : State := { s with inputs := [.command cw payload] }

/-- STATUS after an outcome that is a next state. -/
def statusAfter : Host.Outcome State Fault Refusal → Option CmdWord
  | .next t => some t.status
  | .fault _ => none
  | .refused _ => none

/-- The last response's output bytes after an outcome that is a next state. -/
def outAfter : Host.Outcome State Fault Refusal → Option Bytes
  | .next t => t.responses.getLast?.map Response.out
  | .fault _ => none
  | .refused _ => none

/-- MS after an outcome that is a next state. -/
def msAfter : Host.Outcome State Fault Refusal → Option Bytes
  | .next t => t.ms?.map Vector.toList
  | .fault _ => none
  | .refused _ => none

/-! ### WellFormed smoke: an ill-formed term for each check -/

theorem smoke_short_key_refused :
    (Instr.init 0 0 16 16 (List.replicate 15 0) (List.replicate 16 0)).wf = false := by decide

theorem smoke_long_iv_refused :
    (Instr.init 0 0 16 16 (List.replicate 16 0) (List.replicate 17 0)).wf = false := by decide

theorem smoke_good_init_passes :
    (Instr.init 0 0 16 16 (List.replicate 16 0) (List.replicate 16 0)).wf = true := by decide

/-! ### Decoding: words written out from the spec's encodings (R203, R208, R218) -/

theorem test_decode_init_cbc :
    decode 0b00010000000100000000000000010001 (katKey ++ katIv) = .ok (.init 1 0 16 16 katKey katIv) := by decide

theorem test_decode_init_every_field_differs :
    decode 0b10100101010110100000100101100001 (katKey ++ katIv) = .ok (.init 6 9 0x5a 0xa5 katKey katIv) := by decide

theorem test_decode_encrypt : decode 0b00000000000000000000000000000010 p0 = .ok (.encrypt p0) := by decide

theorem test_decode_decrypt : decode 0b00000000000000000000000000000011 p0 = .ok (.decrypt p0) := by decide

theorem test_decode_discard : decode 0b00000000000000000000000000000100 [] = .ok .discard := by decide

theorem test_decode_rejects_reserved :
    decode 0x10100081 (katKey ++ katIv) = .illegal .initReservedBits ∧
    decode 0x10101001 (katKey ++ katIv) = .illegal .initReservedBits ∧
    decode 0x10100141 (katKey ++ katIv.drop 1) = .illegal .initPayloadLength ∧
    decode 0x00000012 p0 = .illegal .reservedBits ∧ decode 0x00000004 [0x78] = .illegal .discardPayload ∧
    decode 0x00000005 [] = .illegal .unassignedOp ∧ decode 0x00000000 [] = .illegal .unassignedOp := by decide

theorem test_table_words :
    decodeTableWord 32 0x00000001 = some (.init 0 0 0 0 (List.replicate 16 0) (List.replicate 16 0)) ∧
    decodeTableWord 32 0x00000002 = some (.encrypt []) ∧ decodeTableWord 32 0x00000003 = some (.decrypt []) ∧
    decodeTableWord 32 0x00000004 = some .discard ∧ decodeTableWord 32 0x00000005 = none := by decide

/-! ### Words, constants, schedule, rounds, block cipher (V2 to V5) -/

theorem test_rotations_V3 :
    rotl 0x0123456789abcdef 1 = 0x02468acf13579bde ∧ rotl 0x0123456789abcdef 8 = 0x23456789abcdef01 ∧
    rotr 0x0123456789abcdef 3 = 0xe02468acf13579bd ∧ rotr 1 3 = 0x2000000000000000 := by decide

theorem test_z_wrap_V3_12 :
    [zbit 2 60, zbit 2 61, zbit 2 62, zbit 2 63, zbit 2 64, zbit 2 65] = [true, true, true, false, true, false] := by
  decide

theorem test_f_V4_5 : simonF 0x0123456789abcdef = 0x06c9171725eabcbc := by decide

theorem test_round_V4_14 :
    roundFwd (0x6373656420737265, 0x6c6c657661727420) 0x0706050403020100 =
      (0xa4c3b5e2a3dfd8f7, 0x6373656420737265) := by decide

theorem test_schedule_V2_1 :
    (keyExpand .le .simon128 (blockOfBytes katKey)).toList[2]? = some 0x79e8db8abd2c1f4c ∧
    (keyExpand .le .simon128 (blockOfBytes katKey)).toList[67]? = some 0x29b0397872648490 := by decide +kernel

theorem test_schedule_zero_key_V2_3 :
    (keyExpand .le .simon128 (blockOfBytes (List.replicate 16 0))).toList[67]? = some 0xdecd726d55c91f55 := by
  decide +kernel

/-- The known-answer test, V5.1. -/
theorem test_kat_encrypt_V5_1 :
    (encryptBlock .le (katContext .ecb).ks (blockOfBytes p0)).toList =
      toBE 16 0xbc0b4ef82a83aa653ffe541e1e1b6849 := by decide

theorem test_decrypt_V5_5 :
    (decryptBlock .le (katContext .ecb).ks (blockOfBytes (List.replicate 16 0))).toList =
      toBE 16 0x9f41392b188c6cf57b3b273622a7de4d := by decide +kernel

/-- R27 on the known-answer test: under BE the byte strings are reversed end to end. -/
theorem test_kat_big_endian :
    (encryptBlock .be (keyExpand .be .simon128 (blockOfBytes katKey.reverse)) (blockOfBytes p0.reverse)).toList =
      (toBE 16 0xbc0b4ef82a83aa653ffe541e1e1b6849).reverse := by decide

theorem test_forward_sequencer_V5_1 :
    (encryptSeq .le (katContext .ecb).ks (blockOfBytes p0) Internal.reset).1.toList =
      toBE 16 0xbc0b4ef82a83aa653ffe541e1e1b6849 := by decide

/-! ### Commands, one step each (V6, V7) -/

theorem test_init_status_V7_2 :
    statusAfter (step (issued 0x10100011 (katKey ++ katIv) State.reset)) = some 0x00000030 := by decide

theorem test_init_config_error_V7_12 :
    statusAfter (step (issued 0x10100141 (katKey ++ katIv) (session .cbc))) = some 0x00000031 := by decide

theorem test_encrypt_cbc_V6_2 :
    outAfter (step (issued 0x00000002 (p0 ++ katKey) (session .cbc))) =
      some (toBE 32 0x3b2ae5dd62d9e6f1a97a29bec373c370f0c3243c0d7a7615bb0e0a2c37578b9d) := by decide +kernel

theorem test_encrypt_not_initialized_wins_V7_7 :
    statusAfter (step (issued 0x00000002 (p0.drop 1) State.reset)) = some 0x00000003 := by decide

theorem test_decrypt_cfb_V6_3 :
    outAfter (step (issued 0x00000003 (toBE 32 0x7be193fd45b8deef450a7dd899a3c958eeadeea037eb6d405ffbc759c581180a)
      (session .cfb))) = some (p0 ++ katKey) := by decide

theorem test_decrypt_ctr_final_ms_V6_5 :
    msAfter (step (issued 0x00000003 (p0 ++ p0) (session .ctr))) =
      some (toBE 16 0xf0f1f2f3f4f5f6f7f8f9fafbfcfdff01) := by decide

theorem test_discard_V7_23 :
    statusAfter (step (issued 0x00000004 [] (session .cbc))) = some 0x00000000 := by decide

theorem test_discard_with_payload_V7_22 :
    statusAfter (step (issued 0x00000004 [0x78] (session .cbc))) = some 0x00000034 := by decide

theorem test_withFetchWord_runs :
    statusAfter (step (State.reset.withFetchWord 32 0x00000001)) = some 0x00000001 ∧
    statusAfter (step (State.reset.withFetchWord 32 0x00000002)) = some 0x00000003 ∧
    statusAfter (step (State.reset.withFetchWord 32 0x10100031)) = some 0x00000070 := by decide

/-! ### Assembler text (R216, R217) -/

theorem test_assemble_init_text :
    assembleText "INIT CBC, key=000102030405060708090a0b0c0d0e0f, iv=f0f1f2f3f4f5f6f7f8f9fafbfcfdfeff, variant=1 ; P4" =
      some (0x10100111, katKey ++ katIv) := by decide

theorem test_assemble_other_text :
    assembleText "ENCRYPT \"\"" = some (0x00000002, []) ∧
    assembleText ".cmd 0x00000004, payload=78" = some (0x00000004, [0x78]) ∧
    assembleText "INIT.CTR key=000102030405060708090a0b0c0d0e0f, ctr=f0f1f2f3f4f5f6f7f8f9fafbfcfdfeff" =
      some (0x10100021, katKey ++ katIv) ∧
    assembleText "ENCRYPT 207" = none := by decide

/-! ### Witnesses: concrete states and operands that meet each statement's hypotheses -/

theorem witness_DecodeOfEncode : (Instr.init 7 15 255 0 katKey katIv).wf = true := by decide

theorem witness_EncodeOfDecode : decode 0x00000002 p0 = .ok (.encrypt p0) := by decide

theorem witness_InitFieldsAreSlices :
    decode 0xff000f71 (katKey ++ katIv) = .ok (.init 7 15 0 255 katKey katIv) := by decide

theorem witness_LegalWordsAreTheTable :
    ∃ r ∈ opcodeTable, r.covers 0xffff0f71 = true := by decide

/-- The bounds of r in both rotation statements, and the sum bound of the composition. -/
theorem witness_Rotations : (0 < 1 ∧ 1 < 64) ∧ (0 < 63 ∧ 63 < 64) ∧ 1 + 62 < 64 := by decide

/-- The first computed word, the first with a wrapped z index, and the last (R304). -/
theorem witness_KeySchedule : (2 ≤ 2 ∧ 2 < 68) ∧ (2 ≤ 64 ∧ 64 < 68) ∧ (2 ≤ 67 ∧ 67 < 68) := by decide

theorem witness_NeighbourRoundKeysDetermineKey :
    ∃ key key' : Block, (66 : Nat) + 1 < 68 ∧
      (keyExpand .le .simon128 key)[66] = (keyExpand .le .simon128 key')[66] ∧
      (keyExpand .le .simon128 key)[67] = (keyExpand .le .simon128 key')[67] :=
  ⟨blockOfBytes katKey, blockOfBytes katKey, by decide, rfl, rfl⟩

/-- A session in every mode with a message of one whole block: the hypotheses of the mode statements, of the round trip,
the keystream and the split statements. -/
theorem witness_WholeBlockSession (m : Mode) :
    (session m).ctx = some (katContext m) ∧ (katContext m).cfg.mode = m ∧ WholeBlocks p0 ∧ 0 < blockCount p0 := by
  refine ⟨rfl, rfl, ?_, ?_⟩ <;> decide

/-- The same session with the empty message, the boundary of the mode statements. -/
theorem witness_EmptyMessageSession (m : Mode) :
    (session m).ctx = some (katContext m) ∧ WholeBlocks [] ∧ blockCount [] = 0 := by
  refine ⟨rfl, ?_, ?_⟩ <;> decide

theorem witness_OfbCryptCompletes :
    ∃ i : Instr, (i = .encrypt p0 ∨ i = .decrypt p0) ∧ (session .ofb).ctx = some (katContext .ofb) ∧ WholeBlocks p0 :=
  ⟨_, .inr rfl, rfl, by decide⟩

theorem witness_CtrCryptCompletes :
    ∃ i : Instr, (i = .encrypt p0 ∨ i = .decrypt p0) ∧ (session .ctr).ctx = some (katContext .ctr) ∧ WholeBlocks p0 :=
  ⟨_, .inl rfl, rfl, by decide⟩

theorem witness_KeystreamIndependentOfData :
    (session .ctr).ctx = some (katContext .ctr) ∧ (katContext .ctr).cfg.mode = .ctr ∧ WholeBlocks p0 ∧
      katKey.length = p0.length := by
  refine ⟨rfl, rfl, ?_, ?_⟩ <;> decide

/-- The IV of V6.9 is not the IV V. -/
theorem changed_iv_differs : blockOfBytes (toBE 16 0xf1f1f2f3f4f5f6f7f8f9fafbfcfdfeff) ≠ blockOfBytes katIv :=
  fun e => absurd (congrArg Vector.toList e) (by decide)

/-- Two IVs that differ in bit 0 of byte 0 (V6.9), in each streaming mode. -/
theorem witness_ChangedIvChangesEveryBlock (m : Mode) (h : m ≠ .ecb) :
    ∃ (s s' : State) (c : Context) (ms : Block), s.ctx = some c ∧ s'.ctx = some { c with ms := ms } ∧
      c.cfg.mode ≠ .ecb ∧ ms ≠ c.ms ∧ WholeBlocks p0 :=
  ⟨session m,
    { session m with ctx := some { katContext m with ms := blockOfBytes (toBE 16 0xf1f1f2f3f4f5f6f7f8f9fafbfcfdfeff) } },
    katContext m, _, rfl, rfl, h, changed_iv_differs, by decide⟩

theorem witness_SplitMessageSameOutput :
    ∃ cmd : Bytes → Instr, (cmd = .encrypt ∨ cmd = .decrypt) ∧ (session .cfb).ctx = some (katContext .cfb) ∧
      WholeBlocks p0 ∧ WholeBlocks katKey :=
  ⟨_, .inl rfl, rfl, by decide, by decide⟩

theorem witness_InitBuildsContext : katKey.length = 16 ∧ katIv.length = 16 := by decide

/-- One witness for each cause of CONFIG_ERROR at its boundary, and one for none. -/
theorem witness_InitConfigError :
    katKey.length = 16 ∧ katIv.length = 16 ∧ (1 : BitVec 4) ≠ 0 ∧ (15 : BitVec 8) ≠ 16 ∧ (17 : BitVec 8) ≠ 16 ∧
      4 < (5 : BitVec 3).toNat ∧ ¬ 4 < (4 : BitVec 3).toNat := by decide

/-- Without a context: the hypothesis of the NOT_INITIALIZED statement and of the zero-length statement's second clause. -/
theorem witness_CryptNotInitialized : State.reset.ctx = none := rfl

theorem witness_CryptLengthError (m : Mode) :
    (session m).ctx = some (katContext m) ∧ (p0.drop 1).length % 16 ≠ 0 ∧ (p0 ++ [0]).length % 16 ≠ 0 := by
  refine ⟨rfl, ?_, ?_⟩ <;> decide

theorem witness_IllegalCommandAnswered :
    ∃ (s : State) (cw : CmdWord) (payload : Bytes) (rest : List HostEvent) (why : Reject),
      s.inputs = .command cw payload :: rest ∧ decode cw payload = .illegal why :=
  ⟨issued 0x00000005 [] (session .cbc), _, _, _, .unassignedOp, rfl, by decide⟩

/-- A bound of 16 bytes, with a message over it and a message at it. -/
theorem witness_OversizeMessageRefused :
    ∃ (P : Params) (s : State) (c : Context), s.ctx = some c ∧ P.maxMessageBytes = some 16 ∧
      WholeBlocks (p0 ++ p0) ∧ 16 < (p0 ++ p0).length ∧ WholeBlocks p0 ∧ ¬ 16 < p0.length :=
  ⟨{ Config.params with maxMessageBytes := some 16 }, session .ecb, _, rfl, rfl, by decide, by decide, by decide,
    by decide⟩

theorem witness_ErrorsArePrecise :
    ∃ (s t : State) (cw : CmdWord) (payload : Bytes) (rest : List HostEvent),
      s.inputs = .command cw payload :: rest ∧ step s = .next t ∧ statusResultField t.status ≠ 0 :=
  ⟨issued 0x00000002 p0 State.reset, _, _, _, _, rfl, rfl, by decide⟩

theorem witness_EveryCommandAnswered : (issued 0x00000002 p0 State.reset).inputs = [.command 0x00000002 p0] := rfl

theorem witness_DiscardEndsSession :
    (∃ t, exec .discard State.reset = .next t ∧ State.reset.ctx = none) ∧ (∃ t, exec .discard (session .ofb) = .next t) :=
  ⟨⟨_, rfl, rfl⟩, ⟨_, rfl⟩⟩

theorem witness_StatusFields : ∃ t, exec .discard State.reset = .next t := ⟨_, rfl⟩

theorem witness_StepRunsDecoded :
    ∃ (s : State) (rest : List HostEvent),
      s.inputs = .command 0x00000003 p0 :: rest ∧ decode 0x00000003 p0 = .ok (.decrypt p0) :=
  ⟨issued 0x00000003 p0 (session .ofb), [], rfl, by decide⟩

theorem witness_IdleAndReset :
    State.reset.inputs = [] ∧ ({ session .cbc with inputs := [.reset] } : State).inputs = .reset :: [] := ⟨rfl, rfl⟩

/-- One command of each row of R902's table, issued after reset: INIT, a bad INIT, ENCRYPT, DISCARD, an illegal word. -/
theorem witness_ResponsesAfterReset :
    State.reset.ctx = none ∧
    decode 0x10100041 (katKey ++ katIv) = .ok (.init (modeBits .ofb) 0 16 16 katKey katIv) ∧
    decode 0x10100051 (katKey ++ katIv) = .ok (.init 5 0 16 16 katKey katIv) ∧
    decode 0x00000002 p0 = .ok (.encrypt p0) ∧ decode 0x00000004 [] = .ok .discard ∧
    decode 0x00000000 [] = .illegal .unassignedOp ∧
    ∀ cw payload, ∃ t, step (issued cw payload State.reset) = .next t := by
  refine ⟨rfl, by decide, by decide, by decide, by decide, by decide, fun cw payload => ?_⟩
  obtain ⟨hf, _⟩ | ⟨_, h⟩ | ⟨i, _, h⟩ | ⟨_, _, h⟩ := step_cases (issued cw payload State.reset)
  · exact ⟨_, by assumption⟩
  · exact ⟨_, h⟩
  · rw [h]
    cases i with
    | init m v kb bb key iv =>
      obtain ⟨_, h⟩ | ⟨_, _, h⟩ | ⟨_, _, _, h⟩ := initUnder_cases Config.params m v kb bb key iv
        (accept (issued cw payload State.reset)) <;> exact ⟨_, h⟩
    | encrypt msg => exact ⟨_, rfl⟩
    | decrypt msg => exact ⟨_, rfl⟩
    | discard => exact ⟨_, rfl⟩
  · exact ⟨_, h⟩

/-- A session and a step for each clause: kept (idle), MS advanced, ended by DISCARD, replaced by INIT. -/
theorem witness_SessionKeptByStep :
    (session .cbc).ctx = some (katContext .cbc) ∧ step (session .cbc) = .next (session .cbc) ∧
    (∃ t, step (issued 0x00000002 p0 (session .cbc)) = .next t) ∧
    (∃ t, step (issued 0x00000004 [] (session .cbc)) = .next t) ∧
    (∃ t, step (issued 0x10100001 (katKey ++ katIv) (session .cbc)) = .next t) :=
  ⟨rfl, rfl, ⟨_, rfl⟩, ⟨_, rfl⟩, ⟨_, rfl⟩⟩

/-- A state that meets the invariant, and whose step builds a context. -/
theorem witness_InvariantKeptByStep :
    ∃ s t : State, s.Inv ∧ step s = .next t ∧ t.ctx.isSome = true :=
  ⟨issued 0x10100001 (katKey ++ katIv) State.reset, _,
    { ctx := fun _ h => (nomatch h), status := ⟨.ok, rfl⟩, responses := fun _ h => (nomatch h) }, rfl, rfl⟩

/-- Two states that differ in the internal registers and the counter only. -/
theorem witness_InternalRegistersUnobservable :
    SameVisible (session .cbc) { session .cbc with internal := { Internal.reset with x := 1 }, free := 5 } :=
  ⟨rfl, rfl, rfl, rfl⟩

theorem witness_StatusNeverRead :
    ∃ s : State, s.inputs = .command 0x00000002 p0 :: [] := ⟨issued 0x00000002 p0 State.reset, rfl⟩

/-- Two different sessions, each discarded. -/
theorem witness_NoResidueAfterDiscard :
    ∃ t t' : State, (issued 0x00000004 [] (session .cbc)).inputs = (issued 0x00000004 [] (session .ofb)).inputs ∧
      (issued 0x00000004 [] (session .cbc)).responses = (issued 0x00000004 [] (session .ofb)).responses ∧
      step (issued 0x00000004 [] (session .cbc)) = .next t ∧ step (issued 0x00000004 [] (session .ofb)) = .next t' :=
  ⟨_, _, rfl, rfl, rfl, rfl⟩

/-- Two different sessions, each reset with a command still to come. -/
theorem witness_NoResidueAfterReset :
    ∃ (s s' t t' : State), s.ctx ≠ s'.ctx ∧ s.inputs = s'.inputs ∧ s.responses = s'.responses ∧
      (∃ rest, s.inputs = .reset :: rest) ∧ step s = .next t ∧ step s' = .next t' :=
  ⟨{ session .cbc with inputs := [.reset, .command 0x00000002 p0] },
    { session .ofb with inputs := [.reset, .command 0x00000002 p0] }, _, _,
    fun h => absurd (congrArg (Option.map fun c : Context => c.cfg.mode) h) (by decide), rfl, rfl, ⟨_, rfl⟩, rfl, rfl⟩

/-- One INIT that answers OK, issued with no context and in a session. -/
theorem witness_InitReplacesContextWhole :
    ∃ t t' : State, (0x10100001 : CmdWord).toNat % 16 = 1 ∧
      step (issued 0x10100001 (katKey ++ katIv) State.reset) = .next t ∧
      step (issued 0x10100001 (katKey ++ katIv) (session .ofb)) = .next t' ∧ statusResultField t.status = 0 :=
  ⟨_, _, by decide, rfl, rfl, by decide⟩

end Sys2Proof.Tests
end

section
/-! The fields of the status word (R210, R211), and that it is always one R701 allows. -/

namespace Sys2Proof.Machine

@[simp] theorem statusResultField_statusWord (ctx : Option Context) (code : ResultCode) :
    statusResultField (statusWord ctx code) = resultBits code := by
  apply BitVec.eq_of_getLsbD_eq
  intro t ht
  unfold statusResultField statusWord
  interval_cases t <;> simp

@[simp] theorem statusInitField_statusWord (ctx : Option Context) (code : ResultCode) :
    statusInitField (statusWord ctx code) = initBit ctx := by
  apply BitVec.eq_of_getLsbD_eq
  intro t ht
  unfold statusInitField statusWord
  interval_cases t
  simp

@[simp] theorem statusModeField_statusWord (ctx : Option Context) (code : ResultCode) :
    statusModeField (statusWord ctx code) = statusMode ctx := by
  apply BitVec.eq_of_getLsbD_eq
  intro t ht
  unfold statusModeField statusWord
  interval_cases t <;> simp

@[simp] theorem statusReservedField_statusWord (ctx : Option Context) (code : ResultCode) :
    statusReservedField (statusWord ctx code) = 0 := by
  apply BitVec.eq_of_getLsbD_eq
  intro t ht
  unfold statusReservedField statusWord
  interval_cases t <;> simp

theorem resultBits_le (code : ResultCode) : (resultBits code).toNat ≤ 4 := by
  cases code <;> decide

theorem resultBits_ne_zero {code : ResultCode} : resultBits code ≠ 0 ↔ code ≠ .ok := by
  cases code <;> decide

theorem modeBits_le (m : Mode) : (modeBits m).toNat ≤ 4 := by
  cases m <;> decide

theorem statusMode_le (ctx : Option Context) : (statusMode ctx).toNat ≤ 4 := by
  cases ctx with
  | none => simp [statusMode]
  | some c => exact modeBits_le c.cfg.mode

/-- Without INIT_FLAG there is no context, and the mode bits are zero (R17). -/
theorem statusMode_eq_zero {ctx : Option Context} (h : initBit ctx = 0) : statusMode ctx = 0 := by
  cases ctx with
  | none => rfl
  | some c => simp [initBit] at h

/-- STATUS at reset is also the status word of OK without a context (R24, R210). -/
theorem statusWord_none_ok : statusWord none .ok = 0x00000000 := by decide

theorem statusOk_statusWord (ctx : Option Context) (code : ResultCode) : StatusOk (statusWord ctx code) := by
  refine ⟨by simp, by simpa using resultBits_le code, by simpa using statusMode_le ctx, fun h => ?_⟩
  rw [statusInitField_statusWord] at h
  rw [statusModeField_statusWord, statusMode_eq_zero h]

end Sys2Proof.Machine
end

section
/-! The contexts INIT builds: CFG from the three checks (R14, R702), KS from the recurrence (R301, R302). -/

namespace Sys2Proof.Machine

/-- Where INIT's checks pass, CFG is the variant's and mode's own. -/
theorem initCfg_eq_some {mode : BitVec 3} {variant : BitVec 4} {kb bb : BitVec 8} {cfg : Cfg}
    (h : initCfg mode variant kb bb = some cfg) : ∃ v m, cfg = cfgFor v m := by
  unfold initCfg at h
  split at h
  · simp at h
  · split at h
    · simp at h
    · split at h
      · simp at h
      · exact ⟨_, _, (Option.some.inj h).symm⟩

/-- Every word of a list the recurrence continues comes from the two before it. -/
theorem keyExpandFrom_recurrence (z : Fin 5) (n : Nat) : ∀ (i : Nat) (k2 k1 : Word) (j : Nat) (hj : j < n),
    (k2 :: k1 :: keyExpandFrom z n i k2 k1)[j + 2]'(by simp [keyExpandFrom_length, hj]) =
      keyNext z (i + j) ((k2 :: k1 :: keyExpandFrom z n i k2 k1)[j]'(by simp [keyExpandFrom_length]; omega))
        ((k2 :: k1 :: keyExpandFrom z n i k2 k1)[j + 1]'(by simp [keyExpandFrom_length]; omega)) := by
  induction n with
  | zero => intro i k2 k1 j hj; omega
  | succ n ih =>
    intro i k2 k1 j hj
    cases j with
    | zero => rfl
    | succ j =>
      have hrec := ih (i + 1) k1 (keyNext z i k2 k1) j (by omega)
      rw [show i + 1 + j = i + (j + 1) by omega] at hrec
      exact hrec

/-- KeyExpand's schedule obeys the recurrence, for every key (R302, R307). -/
theorem scheduleOk_keyExpand (o : WordByteOrder) (v : Variant) (key : Block) :
    ScheduleOk v (keyExpand o v key) := by
  rintro i ⟨hlow, hhigh⟩
  obtain ⟨j, rfl⟩ := Nat.exists_eq_add_of_le' hlow
  have hrec := keyExpandFrom_recurrence (variantZ v) 66 2 (keyWords o key).1 (keyWords o key).2 j (by omega)
  rw [Nat.add_comm 2 j] at hrec
  exact hrec

/-- A context with the CFG of a variant and the schedule of a key is one INIT can have built. -/
theorem Context.ok_of_keyExpand (v : Variant) (m : Mode) (o : WordByteOrder) (key ms : Block) :
    Context.Ok { cfg := cfgFor v m, ks := keyExpand o v key, ms := ms } :=
  ⟨rfl, scheduleOk_keyExpand o v key⟩

/-- MS takes no part in what makes a context one INIT can have built. -/
theorem Context.Ok.setMs {c : Context} (h : c.Ok) (ms : Block) : Context.Ok { c with ms := ms } :=
  ⟨h.cfg, h.ks⟩

end Sys2Proof.Machine
end

section
/-! When a message leaves MS as it was: no block, or the mode ECB (R602, R603, R707). -/

namespace Sys2Proof.Machine

theorem runBlocks_keeps_ms {step : Block → Block → Block × Block} (hstep : ∀ b ms, (step b ms).2 = ms)
    (bs : List Block) (ms : Block) : (runBlocks step bs ms).2 = ms := by
  induction bs generalizing ms with
  | nil => rfl
  | cons b bs ih => rw [runBlocks_cons, hstep, ih]

theorem contextStep_ecb_keeps_ms (o : WordByteOrder) (dir : Dir) {c : Context} (h : c.cfg.mode = .ecb) (b ms : Block) :
    (contextStep o dir c b ms).2 = ms := by
  cases dir <;> simp [contextStep, h, modeStep, ecbEncStep, ecbDecStep]

theorem modeRun_ecb_ms (o : WordByteOrder) (dir : Dir) {c : Context} (msg : Bytes) (h : c.cfg.mode = .ecb) :
    (modeRun o dir c msg).2 = c.ms :=
  runBlocks_keeps_ms (contextStep_ecb_keeps_ms o dir h) _ _

theorem modeRun_short_ms (o : WordByteOrder) (dir : Dir) (c : Context) {msg : Bytes} (h : msg.length < 16) :
    (modeRun o dir c msg).2 = c.ms := by
  have hnone : messageBlocks msg = [] := by
    rw [← List.length_eq_zero_iff, messageBlocks_length, Nat.div_eq_of_lt h]
  simp [modeRun, hnone]

end Sys2Proof.Machine
end

section
/-! Which command words spell which instruction (R201, R208, R209, R212). -/

namespace Sys2Proof

theorem opField_toNat (cw : CmdWord) : (opField cw).toNat = cw.toNat % 16 := by
  simp [opField]

theorem upperField_toNat (cw : CmdWord) : (upperField cw).toNat = cw.toNat / 16 := by
  have := cw.isLt
  simp [upperField, Nat.shiftRight_eq_div_pow]
  omega

/-- A word whose upper bits are clear is its OP field (R208). -/
theorem cmdWord_eq_of_fields {cw : CmdWord} {op : BitVec 4} (hop : opField cw = op) (hup : upperField cw = 0) :
    cw = op.zeroExtend 32 := by
  have hlow := opField_toNat cw
  have hhigh := upperField_toNat cw
  rw [hop] at hlow
  rw [hup] at hhigh
  apply BitVec.eq_of_toNat_eq
  simp at hhigh ⊢
  omega

theorem decodeInit_ok {cw : CmdWord} {payload : Bytes} {i : Instr} (h : decodeInit cw payload = .ok i) :
    ∃ mode variant kb bb key iv, i = .init mode variant kb bb key iv := by
  unfold decodeInit at h
  split at h
  · cases h
  · split at h
    · cases h
    · exact ⟨_, _, _, _, _, _, (Decoded.ok.inj h).symm⟩

/-- What a command spells when it decodes: INIT has OP 1, and each other instruction has one word. -/
theorem decode_ok_cases {cw : CmdWord} {payload : Bytes} {i : Instr} (h : decode cw payload = .ok i) :
    (cw.toNat % 16 = 1 ∧ ∃ mode variant kb bb key iv, i = .init mode variant kb bb key iv) ∨
    (cw = 0x00000002 ∧ i = .encrypt payload) ∨
    (cw = 0x00000003 ∧ i = .decrypt payload) ∨
    (cw = 0x00000004 ∧ payload = [] ∧ i = .discard) := by
  unfold decode at h
  split_ifs at h with hinit henc hup hdec hup hdis hup hpay
  · exact .inl ⟨by rw [← opField_toNat, hinit]; rfl, decodeInit_ok h⟩
  · cases h
    exact .inr (.inl ⟨cmdWord_eq_of_fields henc (not_not.mp hup), rfl⟩)
  · cases h
    exact .inr (.inr (.inl ⟨cmdWord_eq_of_fields hdec (not_not.mp hup), rfl⟩))
  · cases h
    exact .inr (.inr (.inr ⟨cmdWord_eq_of_fields hdis (not_not.mp hup), not_not.mp hpay, rfl⟩))

theorem decode_init {cw : CmdWord} {payload : Bytes} {mode : BitVec 3} {variant : BitVec 4} {kb bb : BitVec 8}
    {key iv : Bytes} (h : decode cw payload = .ok (.init mode variant kb bb key iv)) : cw.toNat % 16 = 1 := by
  simpa using decode_ok_cases h

theorem decode_encrypt {cw : CmdWord} {payload msg : Bytes} (h : decode cw payload = .ok (.encrypt msg)) :
    cw = 0x00000002 ∧ msg = payload := by
  simpa using decode_ok_cases h

theorem decode_decrypt {cw : CmdWord} {payload msg : Bytes} (h : decode cw payload = .ok (.decrypt msg)) :
    cw = 0x00000003 ∧ msg = payload := by
  simpa using decode_ok_cases h

theorem decode_discard {cw : CmdWord} {payload : Bytes} (h : decode cw payload = .ok .discard) :
    cw = 0x00000004 ∧ payload = [] := by
  simpa using decode_ok_cases h

end Sys2Proof
end

section
/-! What a command does, as a relation between the context before it and the result it completes with; and the one fact
about the step that the whole-machine statements rest on: a command's step reads the context and nothing else of the core. -/

namespace Sys2Proof.Machine

/-- The instruction that runs a message in a direction (R703, R704). -/
def cryptInstr : Dir → Bytes → Instr
  | .enc, msg => .encrypt msg
  | .dec, msg => .decrypt msg

theorem exec_cryptInstr (dir : Dir) (msg : Bytes) (s : State) :
    exec (cryptInstr dir msg) s = cryptUnder Config.params dir msg s := by
  cases dir <;> rfl

/-- The words of ENCRYPT and DECRYPT, and their payload (R208). -/
theorem decode_cryptInstr {cw : CmdWord} {payload : Bytes} {dir : Dir} {msg : Bytes}
    (h : decode cw payload = .ok (cryptInstr dir msg)) : (cw = 0x00000002 ∨ cw = 0x00000003) ∧ msg = payload := by
  cases dir with
  | enc => exact (decode_encrypt h).imp_left .inl
  | dec => exact (decode_decrypt h).imp_left .inr

/-- `Effect d ctx code out ctx'`: a command that decodes to `d`, issued with the context `ctx`, completes with `code`, the
output `out` and the context `ctx'`. An error keeps the context and gives no output (R805); the other constructors are the
three ways of completing with OK. -/
inductive Effect (d : Decoded) (ctx : Option Context) : ResultCode → Bytes → Option Context → Prop where
  | error {code : ResultCode} (hcode : code ≠ .ok) : Effect d ctx code [] ctx
  | init {mode : BitVec 3} {variant : BitVec 4} {kb bb : BitVec 8} {key iv : Bytes} (v : Variant) (m : Mode)
      (hd : d = .ok (.init mode variant kb bb key iv)) (hcfg : initCfg mode variant kb bb = some (cfgFor v m)) :
      Effect d ctx .ok [] (some
        { cfg := cfgFor v m, ks := keyExpand Config.params.wordByteOrder v (blockOfBytes key), ms := blockOfBytes iv })
  | crypt {dir : Dir} {msg : Bytes} {c : Context} (hd : d = .ok (cryptInstr dir msg)) (hctx : ctx = some c)
      (hlen : WholeBlocks msg) :
      Effect d ctx .ok (modeRun Config.params.wordByteOrder dir c msg).1
        (some { c with ms := (modeRun Config.params.wordByteOrder dir c msg).2 })
  | discard (hd : d = .ok .discard) : Effect d ctx .ok [] none

/-- The state in which a command issued in `s` completes (R701). -/
def complete (code : ResultCode) (out : Bytes) (ctx : Option Context) (s : State) : State :=
  respond code out { s with ctx := ctx }

@[simp] theorem complete_ctx (code : ResultCode) (out : Bytes) (ctx : Option Context) (s : State) :
    (complete code out ctx s).ctx = ctx := rfl
@[simp] theorem complete_status (code : ResultCode) (out : Bytes) (ctx : Option Context) (s : State) :
    (complete code out ctx s).status = statusWord ctx code := rfl
@[simp] theorem complete_inputs (code : ResultCode) (out : Bytes) (ctx : Option Context) (s : State) :
    (complete code out ctx s).inputs = s.inputs := rfl
@[simp] theorem complete_responses (code : ResultCode) (out : Bytes) (ctx : Option Context) (s : State) :
    (complete code out ctx s).responses = s.responses ++ [{ sw := statusWord ctx code, out := out }] := rfl

/-- STATUS is overwritten by a completed command. -/
theorem complete_of_status (code : ResultCode) (out : Bytes) (ctx : Option Context) (s : State) (sw : CmdWord) :
    complete code out ctx { s with status := sw } = complete code out ctx s := rfl

theorem raise_eq_complete {s : State} {ctx : Option Context} (code : ResultCode) (h : s.ctx = ctx) :
    raise code s = complete code [] ctx s := by
  subst h; rfl

/-- INIT has one effect for each context, whatever else the state holds. -/
theorem exec_init_effect (mode : BitVec 3) (variant : BitVec 4) (kb bb : BitVec 8) (key iv : Bytes)
    (ctx : Option Context) :
    ∃ code out ctx', Effect (.ok (.init mode variant kb bb key iv)) ctx code out ctx' ∧
      ∀ s : State, s.ctx = ctx → exec (.init mode variant kb bb key iv) s = .next (complete code out ctx' s) := by
  cases hp : initPayloadOk key iv with
  | false =>
    refine ⟨_, _, _, .error (code := .illegalCommand) (by simp), fun s hs => ?_⟩
    rw [← raise_eq_complete _ hs]
    simp [exec, execInit, initUnder, hp]
  | true =>
    cases hc : initCfg mode variant kb bb with
    | none =>
      refine ⟨_, _, _, .error (code := .configError) (by simp), fun s hs => ?_⟩
      rw [← raise_eq_complete _ hs]
      simp [exec, execInit, initUnder, hp, hc]
    | some cfg =>
      obtain ⟨v, m, rfl⟩ := initCfg_eq_some hc
      refine ⟨_, _, _, .init v m rfl hc, fun s _ => ?_⟩
      simp [exec, execInit, initUnder, hp, hc, complete, State.setContext, cfgFor]

/-- ENCRYPT and DECRYPT have one effect for each context, whatever else the state holds. -/
theorem exec_crypt_effect (dir : Dir) (msg : Bytes) (ctx : Option Context) :
    ∃ code out ctx', Effect (.ok (cryptInstr dir msg)) ctx code out ctx' ∧
      ∀ s : State, s.ctx = ctx → exec (cryptInstr dir msg) s = .next (complete code out ctx' s) := by
  simp only [exec_cryptInstr]
  cases ctx with
  | none =>
    refine ⟨_, _, _, .error (code := .notInitialized) (by simp), fun s hs => ?_⟩
    rw [← raise_eq_complete _ hs]
    simp [cryptUnder, hs]
  | some c =>
    cases hl : lengthAdmitted Config.params.partialPolicy msg.length with
    | false =>
      refine ⟨_, _, _, .error (code := .lengthError) (by simp), fun s hs => ?_⟩
      rw [← raise_eq_complete _ hs]
      simp [cryptUnder, hs, hl]
    | true =>
      refine ⟨_, _, _, .crypt rfl rfl ((lengthAdmitted_reject _).mp hl), fun s hs => ?_⟩
      simp [cryptUnder, hs, hl, complete, State.setContext]

/-- A command's step reads the context and nothing else of the core: for each context it has one effect, in every state
that holds the context. -/
theorem step_command_effect (cw : CmdWord) (payload : Bytes) (rest : List HostEvent) (ctx : Option Context) :
    ∃ code out ctx', Effect (decode cw payload) ctx code out ctx' ∧
      ∀ s : State, s.ctx = ctx → s.inputs = .command cw payload :: rest →
        step s = .next (complete code out ctx' (accept s)) := by
  have hfetch (s : State) (hin : s.inputs = .command cw payload :: rest) := fetch_command s cw payload rest hin
  cases hd : decode cw payload with
  | illegal why =>
    refine ⟨_, _, _, .error (code := .illegalCommand) (by simp), fun s hs hin => ?_⟩
    rw [← raise_eq_complete _ (accept_ctx s ▸ hs)]
    simp [step, hfetch s hin, fetchCommand, hd]
  | ok i =>
    have hexec : ∃ code out ctx', Effect (.ok i) ctx code out ctx' ∧
        ∀ s : State, s.ctx = ctx → exec i s = .next (complete code out ctx' s) := by
      cases i with
      | init mode variant kb bb key iv => exact exec_init_effect mode variant kb bb key iv ctx
      | encrypt msg => exact exec_crypt_effect .enc msg ctx
      | decrypt msg => exact exec_crypt_effect .dec msg ctx
      | discard => exact ⟨_, _, _, .discard rfl, fun s _ => rfl⟩
    obtain ⟨code, out, ctx', heffect, hnext⟩ := hexec
    refine ⟨code, out, ctx', heffect, fun s hs hin => ?_⟩
    rw [← hnext (accept s) hs]
    simp [step, hfetch s hin, fetchCommand, hd]

theorem step_idle {s : State} (h : s.inputs = []) : step s = .next s := by
  simp [step, fetch, h]

theorem step_reset {s : State} {rest : List HostEvent} (h : s.inputs = .reset :: rest) :
    step s = .next (applyReset (accept s)) := by
  simp [step, fetch, h]

/-- What one step leaves, by the host's next event: the same state, the reset state, or a completed command. -/
theorem step_next_cases {s t : State} (h : step s = .next t) :
    (s.inputs = [] ∧ t = s) ∨
    (∃ rest, s.inputs = .reset :: rest ∧ t = applyReset (accept s)) ∨
    (∃ cw payload rest code out ctx', s.inputs = .command cw payload :: rest ∧
      Effect (decode cw payload) s.ctx code out ctx' ∧ t = complete code out ctx' (accept s)) := by
  match hin : s.inputs with
  | [] => exact .inl ⟨rfl, by simpa [step_idle hin] using h.symm⟩
  | .reset :: rest => exact .inr (.inl ⟨rest, rfl, by simpa [step_reset hin] using h.symm⟩)
  | .command cw payload :: rest =>
    obtain ⟨code, out, ctx', heffect, hnext⟩ := step_command_effect cw payload rest s.ctx
    exact .inr (.inr ⟨cw, payload, rest, code, out, ctx', rfl, heffect, by simpa [hnext s rfl hin] using h.symm⟩)

end Sys2Proof.Machine
end

section
/-! The invariant of context, STATUS and responses. -/

namespace Sys2Proof.Machine

/-- A command that completes with an error gives no output (R701). -/
theorem Effect.out_eq_nil {d : Decoded} {ctx ctx' : Option Context} {code : ResultCode} {out : Bytes}
    (h : Effect d ctx code out ctx') (hcode : code ≠ .ok) : out = [] := by
  cases h with
  | error _ => rfl
  | init _ _ _ _ => rfl
  | crypt _ _ _ => exact absurd rfl hcode
  | discard _ => rfl

/-- A command leaves a context that INIT can have built, where it found such a one. -/
theorem Effect.context_ok {d : Decoded} {ctx ctx' : Option Context} {code : ResultCode} {out : Bytes}
    (h : Effect d ctx code out ctx') (hok : ∀ c, ctx = some c → c.Ok) : ∀ c, ctx' = some c → c.Ok := by
  intro c' hc'
  cases h with
  | error _ => exact hok c' hc'
  | init v m _ _ => cases hc'; exact Context.ok_of_keyExpand v m _ _ _
  | crypt _ hctx _ => cases hc'; exact (hok _ hctx).setMs _
  | discard _ => cases hc'

/-- A completed command establishes the invariant, given the contexts and the earlier responses. -/
theorem inv_complete {code : ResultCode} {out : Bytes} {ctx : Option Context} {s : State}
    (hctx : ∀ c, ctx = some c → c.Ok) (hout : code ≠ .ok → out = []) (hresp : ∀ r ∈ s.responses, r.Ok) :
    (complete code out ctx s).Inv where
  ctx := hctx
  status := ⟨code, rfl⟩
  responses := by
    have hnew : Response.Ok { sw := statusWord ctx code, out := out } :=
      ⟨statusOk_statusWord ctx code, fun h => hout (resultBits_ne_zero.mp (by simpa using h))⟩
    intro r hr
    rw [complete_responses, List.mem_append, List.mem_singleton] at hr
    exact hr.elim (hresp r) (fun h => h ▸ hnew)

/-- Reset establishes what the invariant says of the context and STATUS. -/
theorem inv_applyReset {s : State} (hresp : ∀ r ∈ s.responses, r.Ok) : (applyReset s).Inv where
  ctx := by simp
  status := ⟨.ok, statusWord_none_ok.symm⟩
  responses := hresp

/-- Settles O54: the state after reset is what the reset event leaves, and no response was given yet. -/
theorem invariantAtReset : Obligations.InvariantAtReset :=
  inv_applyReset (s := State.reset) (by simp [State.reset])

/-- Settles O55, by what one step leaves. -/
theorem invariantKeptByStep : Obligations.InvariantKeptByStep := by
  intro s t hinv hstep
  obtain ⟨_, rfl⟩ | ⟨_, _, rfl⟩ | ⟨_, _, _, _, _, _, _, heffect, rfl⟩ := step_next_cases hstep
  · exact hinv
  · exact inv_applyReset hinv.responses
  · exact inv_complete (heffect.context_ok hinv.ctx) heffect.out_eq_nil hinv.responses

end Sys2Proof.Machine
end

section
/-! What no host can see: the internal registers (R23), and what STATUS held before a command (R17). -/

namespace Sys2Proof.Machine

/-- States that agree in what the host can see step to states that agree so. -/
theorem SameVisible.step_next {s t : State} (h : SameVisible s t) :
    ∃ s' t', step s = .next s' ∧ step t = .next t' ∧ SameVisible s' t' := by
  obtain ⟨hctx, hstatus, hinputs, hresponses⟩ := h
  match hin : t.inputs with
  | [] => exact ⟨s, t, step_idle (hinputs.trans hin), step_idle hin, hctx, hstatus, hinputs, hresponses⟩
  | .reset :: rest =>
    exact ⟨_, _, step_reset (hinputs.trans hin), step_reset hin, rfl, rfl, by simp [hinputs], by simp [hresponses]⟩
  | .command cw payload :: rest =>
    obtain ⟨code, out, ctx', _, hnext⟩ := step_command_effect cw payload rest t.ctx
    exact ⟨_, _, hnext s hctx (hinputs.trans hin), hnext t rfl hin, rfl, rfl, by simp [hinputs], by simp [hresponses]⟩

theorem SameVisible.observation_eq {s t : State} (h : SameVisible s t) : s.observation = t.observation := by
  obtain ⟨hctx, hstatus, _, hresponses⟩ := h
  simp [State.observation, State.initFlag, State.cfg?, State.ks?, State.ms?, hctx, hstatus, hresponses]

/-- A run is its first step and then the rest. -/
theorem observe_succ {s s' : State} (h : step s = .next s') (n : Nat) : observe (n + 1) s = observe n s' := by
  simp [observe, Host.Core.run, core, h]

/-- The observation of a run depends on nothing the host cannot see. -/
theorem SameVisible.observe_eq {s t : State} (h : SameVisible s t) (n : Nat) : observe n s = observe n t := by
  induction n generalizing s t with
  | zero => exact congrArg some h.observation_eq
  | succ n ih =>
    obtain ⟨s', t', hs, ht, h'⟩ := h.step_next
    rw [observe_succ hs, observe_succ ht, ih h']

/-- Settles O56: one step keeps the agreement, and the run follows by induction on its length. -/
theorem internalRegistersUnobservable : Obligations.InternalRegistersUnobservable := by
  intro n s t h
  obtain ⟨s', t', hs, ht, h'⟩ := h.step_next
  exact ⟨by rw [hs, ht]; exact h', h.observe_eq n⟩

/-- Settles O57: the step's effect is fixed by the context, and completing the command overwrites STATUS. -/
theorem statusNeverRead : Obligations.StatusNeverRead := by
  intro s sw cw payload rest hin
  obtain ⟨code, out, ctx', _, hnext⟩ := step_command_effect cw payload rest s.ctx
  rw [hnext s rfl hin, hnext { s with status := sw } rfl hin]
  exact congrArg Host.Outcome.next (complete_of_status code out ctx' (accept s) sw)

end Sys2Proof.Machine
end

section
/-! What a step keeps of a session (R25, R709, R903), and the state after reset (R24). -/

namespace Sys2Proof.Machine

/-- Settles O53, by what one step leaves: each effect of a command is one of the clauses. -/
theorem sessionKeptByStep : Obligations.SessionKeptByStep := by
  intro s t c hctx hstep
  obtain ⟨_, rfl⟩ | ⟨rest, hin, rfl⟩ | ⟨cw, payload, rest, _, _, _, hin, heffect, rfl⟩ := step_next_cases hstep
  · exact .inl hctx
  · exact .inr (.inr (.inl ⟨rfl, rest, .inl hin⟩))
  rw [hctx] at heffect
  cases heffect with
  | error _ => exact .inl rfl
  | init _ _ hd _ => exact .inr (.inr (.inr ⟨cw, payload, rest, hin, decode_init hd, by simp [resultBits]⟩))
  | @crypt dir msg c' hd hc _ =>
    cases hc
    obtain ⟨hcw, rfl⟩ := decode_cryptInstr hd
    by_cases hms : msg.length < 16 ∨ c.cfg.mode = .ecb
    · have hkeep : (modeRun Config.params.wordByteOrder dir c msg).2 = c.ms :=
        hms.elim (modeRun_short_ms _ dir c) (modeRun_ecb_ms _ dir msg)
      exact .inl (by rw [complete_ctx, hkeep])
    · obtain ⟨hlen, hmode⟩ := not_or.mp hms
      exact .inr (.inl ⟨cw, msg, rest, _, hin, hcw, not_lt.mp hlen, hmode, rfl⟩)
  | discard hd =>
    obtain ⟨rfl, rfl⟩ := decode_discard hd
    exact .inr (.inr (.inl ⟨rfl, rest, .inr hin⟩))

/-- Settles O51: the reset state holds no context, so no accessor gives a value. -/
theorem resetValues : Obligations.ResetValues :=
  ⟨initFlag_of_none State.reset rfl, rfl, rfl, rfl, rfl⟩

end Sys2Proof.Machine
end

section
/-! Blocks and keys as words (R9, R26 to R28): the word values of byte strings, BE as the byte reversal of LE, and the
mapping between blocks and word pairs as a bijection. -/

namespace Sys2Proof.Machine

theorem leNat_append (as bs : Bytes) : leNat (as ++ bs) = leNat as + 256 ^ as.length * leNat bs := by
  induction as with
  | nil => simp [leNat]
  | cons a as ih => simp only [List.cons_append, leNat, ih, List.length_cons]; ring

/-- Byte `t` of a byte string has weight 2^(8t) (R9). -/
theorem leNat_eq_sum (bs : Bytes) : leNat bs = ∑ t : Fin bs.length, bs[t].toNat * 2 ^ (8 * t.val) := by
  induction bs with
  | nil => rfl
  | cons b bs ih =>
    have hweight (t : Fin bs.length) : bs[t].toNat * 2 ^ (8 * (t.val + 1)) = 256 * (bs[t].toNat * 2 ^ (8 * t.val)) := by
      ring
    calc leNat (b :: bs)
        = b.toNat + ∑ t : Fin bs.length, 256 * (bs[t].toNat * 2 ^ (8 * t.val)) := by rw [leNat, ih, Finset.mul_sum]
      _ = b.toNat + ∑ t : Fin bs.length, bs[t].toNat * 2 ^ (8 * (t.val + 1)) := by simp only [hweight]
      _ = ∑ t : Fin (bs.length + 1), (b :: bs)[t].toNat * 2 ^ (8 * t.val) := by simp [Fin.sum_univ_succ]

/-- Eight bytes are one word: nothing is lost (R9). -/
theorem le64_toNat {bs : Bytes} (h : bs.length = 8) : (le64 bs).toNat = leNat bs := by
  have hlt := leNat_lt bs
  rw [h] at hlt
  exact Nat.mod_eq_of_lt hlt

theorem toLE_le64 {bs : Bytes} (h : bs.length = 8) : toLE 8 (le64 bs).toNat = bs := by
  rw [le64_toNat h, ← h, toLE_leNat]

theorem le64_toLE (w : Word) : le64 (toLE 8 w.toNat) = w := by
  apply BitVec.eq_of_toNat_eq
  rw [le64_toNat (toLE_length 8 _), leNat_toLE]
  exact Nat.mod_eq_of_lt w.isLt

/-- Under LE the last eight bytes are `x` and the first eight are `y` (R26). -/
theorem blockWords_le (b : Block) : blockWords .le b = (le64 (b.toList.drop 8), le64 (b.toList.take 8)) := by
  simp [blockWords, memRead, List.take_of_length_le]

/-- Under BE the first eight bytes are `x` and the last eight are `y` (R27). -/
theorem blockWords_be (b : Block) : blockWords .be b = (be64 (b.toList.take 8), be64 (b.toList.drop 8)) := by
  simp [blockWords, memRead, List.take_of_length_le]

theorem toList_wordsBlock_le (p : Pair) : (wordsBlock .le p).toList = toLE 8 p.2.toNat ++ toLE 8 p.1.toNat :=
  toList_blockOfBytes _ (by simp)

theorem toList_wordsBlock_be (p : Pair) : (wordsBlock .be p).toList = toBE 8 p.1.toNat ++ toBE 8 p.2.toNat :=
  toList_blockOfBytes _ (by simp)

/-- A key's words are its words as a block, in the other order, under either byte order (R27, R28). -/
theorem keyWords_eq_swap (o : WordByteOrder) (key : Block) : keyWords o key = (blockWords o key).swap := by
  cases o <;> rfl

/-- BE reads a block as LE reads its bytes reversed (R27). -/
theorem blockWords_be_eq_le_reverse (b : Block) : blockWords .be b = blockWords .le b.reverse := by
  have hbytes : b.reverse.toList = b.toList.reverse := by simp
  simp [blockWords_be, blockWords_le, hbytes, be64, beNat, le64, List.drop_reverse, List.take_reverse]

/-- BE writes a block as LE writes it with its bytes reversed (R27). -/
theorem wordsBlock_be_eq_le_reverse (p : Pair) : wordsBlock .be p = (wordsBlock .le p).reverse := by
  apply Vector.toList_inj.mp
  simp [toList_wordsBlock_be, toList_wordsBlock_le, toBE]

/-- BE reads a key as LE reads its bytes reversed (R27). -/
theorem keyWords_be_eq_le_reverse (key : Block) : keyWords .be key = keyWords .le key.reverse := by
  rw [keyWords_eq_swap, keyWords_eq_swap, blockWords_be_eq_le_reverse]

theorem wordsBlock_blockWords_le (b : Block) : wordsBlock .le (blockWords .le b) = b := by
  apply Vector.toList_inj.mp
  rw [toList_wordsBlock_le, blockWords_le, toLE_le64 (by simp), toLE_le64 (by simp), List.take_append_drop]

theorem blockWords_wordsBlock_le (p : Pair) : blockWords .le (wordsBlock .le p) = p := by
  simp [blockWords_le, toList_wordsBlock_le, le64_toLE]

@[simp] theorem wordsBlock_blockWords (o : WordByteOrder) (b : Block) : wordsBlock o (blockWords o b) = b := by
  cases o with
  | le => exact wordsBlock_blockWords_le b
  | be =>
    rw [wordsBlock_be_eq_le_reverse, blockWords_be_eq_le_reverse, wordsBlock_blockWords_le, Vector.reverse_reverse]

@[simp] theorem blockWords_wordsBlock (o : WordByteOrder) (p : Pair) : blockWords o (wordsBlock o p) = p := by
  cases o with
  | le => exact blockWords_wordsBlock_le p
  | be =>
    rw [wordsBlock_be_eq_le_reverse, blockWords_be_eq_le_reverse, Vector.reverse_reverse, blockWords_wordsBlock_le]

/-- No key byte is dropped by the master-key words (R28). -/
theorem keyWords_injective (o : WordByteOrder) : Function.Injective (keyWords o) := by
  have hblock : Function.Injective (blockWords o) := Function.LeftInverse.injective (wordsBlock_blockWords o)
  rw [funext (keyWords_eq_swap o)]
  exact Prod.swap_injective.comp hblock

/-- The LE word pair of a block is the block's little-endian integer cut in two (R26). -/
theorem blockWords_le_toNat (b : Block) :
    (blockWords .le b).1.toNat * 2 ^ 64 + (blockWords .le b).2.toNat = leNat b.toList := by
  have hjoin := leNat_append (b.toList.take 8) (b.toList.drop 8)
  rw [List.take_append_drop, List.length_take_of_le (by simp)] at hjoin
  rw [blockWords_le, le64_toNat (by simp), le64_toNat (by simp), hjoin]
  ring

theorem leNat_toList_eq_sum (b : Block) : leNat b.toList = ∑ t : Fin 16, b[t].toNat * 2 ^ (8 * t.val) := by
  rw [leNat_eq_sum]
  exact Fintype.sum_equiv (finCongr b.length_toList) _ _ (fun t => by simp)

/-- Settles O11: both halves have eight bytes, so the pair is the block's integer, and the key's words are the same two. -/
theorem littleEndianBlockValue : Obligations.LittleEndianBlockValue :=
  fun b => ⟨(blockWords_le_toNat b).trans (leNat_toList_eq_sum b), keyWords_eq_swap .le b⟩

/-- Settles O12: for LE by the bytes of the two halves, for BE by reversal. -/
theorem blockWordsBijection : Obligations.BlockWordsBijection :=
  fun o => ⟨wordsBlock_blockWords o, blockWords_wordsBlock o⟩

/-- Settles O13: the key schedule and the block transforms see a block only through its words. -/
theorem bigEndianIsByteReversal : Obligations.BigEndianIsByteReversal := by
  refine ⟨fun b => ⟨blockWords_be b, ?_⟩, fun b => ⟨blockWords_be_eq_le_reverse b, keyWords_be_eq_le_reverse b⟩,
    fun v key => ?_, fun ks b => ⟨?_, ?_⟩⟩
  · rw [keyWords_eq_swap, blockWords_be, Prod.swap_prod_mk]
  · simp only [keyExpand, keyWords_be_eq_le_reverse]
  · simp only [encryptBlock, blockWords_be_eq_le_reverse, wordsBlock_be_eq_le_reverse]
  · simp only [decryptBlock, blockWords_be_eq_le_reverse, wordsBlock_be_eq_le_reverse]

end Sys2Proof.Machine
end

section
/-! The recurrence of the key schedule run backwards (R301, R302). -/

namespace Sys2Proof.Machine

/-- A step of the recurrence drops no bit of the older word (R302). -/
theorem keyNext_left_injective {z : Fin 5} {i : Nat} {k2 k2' k1 : Word} (h : keyNext z i k2 k1 = keyNext z i k2' k1) :
    k2 = k2' := by
  simpa [keyNext] using h

/-- Schedules of the recurrence that agree at two neighbouring indices agree at the first two. -/
theorem ScheduleOk.agree_at_start {v : Variant} {ks ks' : Schedule} (hks : ScheduleOk v ks) (hks' : ScheduleOk v ks')
    (i : Nat) (hi : i + 1 < 68) (h0 : ks[i] = ks'[i]) (h1 : ks[i + 1] = ks'[i + 1]) :
    ks[0] = ks'[0] ∧ ks[1] = ks'[1] := by
  induction i with
  | zero => exact ⟨h0, h1⟩
  | succ i ih =>
    have hrec : ks[i + 2] = keyNext (variantZ v) (i + 2) ks[i] ks[i + 1] := hks (i + 2) ⟨by omega, hi⟩
    have hrec' : ks'[i + 2] = keyNext (variantZ v) (i + 2) ks'[i] ks'[i + 1] := hks' (i + 2) ⟨by omega, hi⟩
    have holder : ks[i] = ks'[i] := keyNext_left_injective (by rw [← hrec, h1, hrec', h0])
    exact ih (by omega) holder h0

/-- The first two round keys are the master-key words (R301). -/
theorem keyWords_eq_keyExpand (o : WordByteOrder) (v : Variant) (key : Block) :
    keyWords o key = ((keyExpand o v key)[0], (keyExpand o v key)[1]) := rfl

/-- Settles O17: run back to the master-key words, which determine the key. -/
theorem neighbourRoundKeysDetermineKey : Obligations.NeighbourRoundKeysDetermineKey := by
  intro o v key key' i hi h0 h1
  obtain ⟨hk0, hk1⟩ := (scheduleOk_keyExpand o v key).agree_at_start (scheduleOk_keyExpand o v key') i hi h0 h1
  apply keyWords_injective o
  rw [keyWords_eq_keyExpand o v, keyWords_eq_keyExpand o v, hk0, hk1]

end Sys2Proof.Machine
end

section
/-! The fields of a command word as slices of its number, and INIT's word as the sum of its shifted fields (R201, R203). -/

namespace Sys2Proof

theorem modeField_toNat (cw : CmdWord) : (modeField cw).toNat = cw.toNat / 2 ^ 4 % 8 := by
  simp [modeField, Nat.shiftRight_eq_div_pow]

theorem rsv7Field_toNat (cw : CmdWord) : (rsv7Field cw).toNat = cw.toNat / 2 ^ 7 % 2 := by
  simp [rsv7Field, Nat.shiftRight_eq_div_pow]

theorem variantField_toNat (cw : CmdWord) : (variantField cw).toNat = cw.toNat / 2 ^ 8 % 16 := by
  simp [variantField, Nat.shiftRight_eq_div_pow]

theorem rsv15Field_toNat (cw : CmdWord) : (rsv15Field cw).toNat = cw.toNat / 2 ^ 12 % 16 := by
  simp [rsv15Field, Nat.shiftRight_eq_div_pow]

theorem keyBytesField_toNat (cw : CmdWord) : (keyBytesField cw).toNat = cw.toNat / 2 ^ 16 % 256 := by
  simp [keyBytesField, Nat.shiftRight_eq_div_pow]

theorem blockBytesField_toNat (cw : CmdWord) : (blockBytesField cw).toNat = cw.toNat / 2 ^ 24 := by
  have htop : cw.toNat / 2 ^ 24 < 256 := by
    have := cw.isLt
    omega
  simpa [blockBytesField, Nat.shiftRight_eq_div_pow] using htop

/-- A field placed above the bits in use adds its shifted value. -/
theorem placed_or_toNat {w n : Nat} (f : BitVec w) {low : CmdWord} (hlow : low.toNat < 2 ^ n) (hw : w + n ≤ 32) :
    (f.zeroExtend 32 <<< n ||| low).toNat = f.toNat * 2 ^ n + low.toNat := by
  have hplaced : f.toNat * 2 ^ n < 2 ^ 32 :=
    calc f.toNat * 2 ^ n < 2 ^ w * 2 ^ n := by gcongr; exact f.isLt
      _ = 2 ^ (w + n) := (Nat.pow_add 2 w n).symm
      _ ≤ 2 ^ 32 := Nat.pow_le_pow_right (by decide) hw
  have hfits : f.toNat < 2 ^ 32 := (Nat.le_mul_of_pos_right _ (Nat.two_pow_pos n)).trans_lt hplaced
  rw [← Nat.shiftLeft_eq] at hplaced ⊢
  rw [BitVec.toNat_or, BitVec.toNat_shiftLeft, BitVec.toNat_setWidth, Nat.mod_eq_of_lt hfits, Nat.mod_eq_of_lt hplaced,
    Nat.shiftLeft_add_eq_or_of_lt hlow]

/-- The fields of INIT's word do not overlap, so the OR of the shifted fields is their sum (R203). -/
theorem encodeInitWord_toNat (mode : BitVec 3) (variant : BitVec 4) (kb bb : BitVec 8) :
    (encodeInitWord mode variant kb bb).toNat =
      bb.toNat * 2 ^ 24 + (kb.toNat * 2 ^ 16 + (variant.toNat * 2 ^ 8 + (mode.toNat * 2 ^ 4 + 1))) := by
  have := mode.isLt
  have := variant.isLt
  have := kb.isLt
  have hmode : (mode.zeroExtend 32 <<< 4 ||| (0x1 : CmdWord)).toNat = mode.toNat * 2 ^ 4 + 1 :=
    placed_or_toNat mode (by decide) (by decide)
  have hvariant := placed_or_toNat (n := 8) variant (hmode.trans_lt (by omega)) (by decide)
  rw [hmode] at hvariant
  have hkb := placed_or_toNat (n := 16) kb (hvariant.trans_lt (by omega)) (by decide)
  rw [hvariant] at hkb
  have hbb := placed_or_toNat (n := 24) bb (hkb.trans_lt (by omega)) (by decide)
  rw [hkb] at hbb
  simpa only [encodeInitWord, BitVec.or_assoc] using hbb

/-- INIT's word holds OP 1, clear reserved bits and the four fields (R203). -/
theorem eq_encodeInitWord_iff {cw : CmdWord} {mode : BitVec 3} {variant : BitVec 4} {kb bb : BitVec 8} :
    cw = encodeInitWord mode variant kb bb ↔
      opField cw = 0x1 ∧ rsv7Field cw = 0 ∧ rsv15Field cw = 0 ∧
        mode = modeField cw ∧ variant = variantField cw ∧ kb = keyBytesField cw ∧ bb = blockBytesField cw := by
  have := mode.isLt
  have := variant.isLt
  have := kb.isLt
  simp only [← BitVec.toNat_inj, encodeInitWord_toNat, opField_toNat, modeField_toNat, rsv7Field_toNat,
    variantField_toNat, rsv15Field_toNat, keyBytesField_toNat, blockBytesField_toNat, BitVec.ofNat_eq_ofNat,
    BitVec.toNat_ofNat]
  omega

end Sys2Proof
end

section
/-! Decode and encode invert each other (R203, R207, R208, R212). -/

namespace Sys2Proof

theorem decodeInit_eq_ok_iff {cw : CmdWord} {payload : Bytes} {i : Instr} :
    decodeInit cw payload = .ok i ↔
      rsv7Field cw = 0 ∧ rsv15Field cw = 0 ∧ payload.length = 32 ∧
        i = .init (modeField cw) (variantField cw) (keyBytesField cw) (blockBytesField cw)
          (payload.take 16) (payload.drop 16) := by
  unfold decodeInit
  split_ifs with hrsv hlen
  · simp only [false_iff]
    tauto
  · simp [hlen]
  · obtain ⟨h7, h15⟩ := not_or.mp hrsv
    simp [not_not.mp h7, not_not.mp h15, not_not.mp hlen, eq_comm]

/-- Only OP 1 decodes to INIT (R209). -/
theorem decode_eq_init_iff_decodeInit {cw : CmdWord} {payload : Bytes} {mode : BitVec 3} {variant : BitVec 4}
    {kb bb : BitVec 8} {key iv : Bytes} :
    decode cw payload = .ok (.init mode variant kb bb key iv) ↔
      opField cw = 0x1 ∧ decodeInit cw payload = .ok (.init mode variant kb bb key iv) := by
  by_cases hop : opField cw = 0x1
  · simp [decode, hop]
  · simp only [hop, false_and, iff_false]
    intro h
    exact hop (BitVec.eq_of_toNat_eq ((opField_toNat cw).trans (decode_init h)))

/-- A 32-byte payload is its two halves (R207). -/
theorem payload_halves_iff {payload key iv : Bytes} :
    (payload.length = 32 ∧ key = payload.take 16 ∧ iv = payload.drop 16) ↔
      (key.length = 16 ∧ iv.length = 16 ∧ key ++ iv = payload) := by
  constructor
  · rintro ⟨hlen, rfl, rfl⟩
    simp [hlen]
  · rintro ⟨hkey, hiv, rfl⟩
    simp [hkey, hiv]

theorem decode_eq_init_iff {cw : CmdWord} {payload : Bytes} {mode : BitVec 3} {variant : BitVec 4}
    {kb bb : BitVec 8} {key iv : Bytes} :
    decode cw payload = .ok (.init mode variant kb bb key iv) ↔
      cw = encodeInitWord mode variant kb bb ∧ key.length = 16 ∧ iv.length = 16 ∧ key ++ iv = payload := by
  rw [decode_eq_init_iff_decodeInit, decodeInit_eq_ok_iff, eq_encodeInitWord_iff, ← payload_halves_iff,
    Instr.init.injEq]
  tauto

/-- A command that decodes spells a well-formed instruction, and is what the encoder writes for it (R212). -/
theorem encode_of_decode {cw : CmdWord} {payload : Bytes} {i : Instr} (h : decode cw payload = .ok i) :
    i.wf = true ∧ encode i = (cw, payload) := by
  obtain ⟨_, _, _, _, _, _, _, rfl⟩ | ⟨rfl, rfl⟩ | ⟨rfl, rfl⟩ | ⟨rfl, rfl, rfl⟩ := decode_ok_cases h
  · obtain ⟨rfl, hkey, hiv, rfl⟩ := decode_eq_init_iff.mp h
    exact ⟨by simp [Instr.wf, initPayloadOk, hkey, hiv], rfl⟩
  · exact ⟨rfl, rfl⟩
  · exact ⟨rfl, rfl⟩
  · exact ⟨rfl, rfl⟩

theorem decode_encryptWord (msg : Bytes) : decode 0x00000002 msg = .ok (.encrypt msg) := rfl

theorem decode_decryptWord (msg : Bytes) : decode 0x00000003 msg = .ok (.decrypt msg) := rfl

theorem decode_discardWord : decode 0x00000004 [] = .ok .discard := rfl

/-- What the encoder writes for a well-formed instruction decodes to it (R212). -/
theorem decode_encode {i : Instr} (hwf : i.wf = true) : decode (encode i).1 (encode i).2 = .ok i := by
  cases i with
  | init mode variant kb bb key iv =>
    obtain ⟨hkey, hiv⟩ : key.length = 16 ∧ iv.length = 16 := by simpa [Instr.wf, initPayloadOk] using hwf
    exact decode_eq_init_iff.mpr ⟨rfl, hkey, hiv, rfl⟩
  | encrypt msg => exact decode_encryptWord msg
  | decrypt msg => exact decode_decryptWord msg
  | discard => exact decode_discardWord

theorem decode_eq_ok_iff {cw : CmdWord} {payload : Bytes} {i : Instr} :
    decode cw payload = .ok i ↔ i.wf = true ∧ encode i = (cw, payload) := by
  refine ⟨encode_of_decode, fun ⟨hwf, hencode⟩ => ?_⟩
  simpa only [hencode] using decode_encode hwf

/-- Settles O1, by cases on the instruction. -/
theorem decodeOfEncode : Obligations.DecodeOfEncode :=
  fun _ => decode_encode

/-- Settles O2, by what a command spells when it decodes. -/
theorem encodeOfDecode : Obligations.EncodeOfDecode :=
  fun _ _ _ => encode_of_decode

/-- Settles O3: INIT's word is the sum of its shifted fields, and slicing the sum gives the fields back. -/
theorem initFieldsAreSlices : Obligations.InitFieldsAreSlices := by
  intro cw payload mode variant kb bb key iv h
  obtain ⟨rfl, hkey, hiv, hpayload⟩ := decode_eq_init_iff.mp h
  have := mode.isLt
  have := variant.isLt
  have := kb.isLt
  rw [encodeInitWord_toNat]
  refine ⟨?_, ?_, ?_, ?_, ?_, hkey, hiv, hpayload⟩ <;> omega

/-- Settles O6: each written word and payload is the encoding of its command. -/
theorem writtenWordsDecode : Obligations.WrittenWordsDecode := by
  refine ⟨?_, ?_, ?_, ?_, ?_, ?_⟩ <;> exact decode_eq_ok_iff.mpr (by decide)

end Sys2Proof
end

section
/-! The table of legal command words (R209). -/

namespace Sys2Proof

/-- A slice that the mask selects whole is the pattern's. -/
theorem extractLsb'_of_mask {cw mask pattern : CmdWord} {start len : Nat}
    (hmask : mask.extractLsb' start len = BitVec.allOnes len) (h : cw &&& mask = pattern) :
    cw.extractLsb' start len = pattern.extractLsb' start len := by
  rw [← h, BitVec.extractLsb'_and, hmask, BitVec.and_allOnes]

/-- The words under INIT's row are the INIT words, one for each value of the four fields (R203, R209). -/
theorem init_mask_iff {cw : CmdWord} :
    cw &&& 0x0000F08F = 0x00000001 ↔ ∃ mode variant kb bb, cw = encodeInitWord mode variant kb bb := by
  constructor
  · intro h
    have hop : opField cw = 0x1 := extractLsb'_of_mask (by decide) h
    have h7 : rsv7Field cw = 0 := extractLsb'_of_mask (by decide) h
    have h15 : rsv15Field cw = 0 := extractLsb'_of_mask (by decide) h
    exact ⟨_, _, _, _, eq_encodeInitWord_iff.mpr ⟨hop, h7, h15, rfl, rfl, rfl, rfl⟩⟩
  · rintro ⟨mode, variant, kb, bb, rfl⟩
    exact Laws.encodeInitWord_under_mask mode variant kb bb

/-- Some payload makes a command of a word exactly where the word is an INIT word, 2, 3 or 4 (R209). -/
theorem decode_ok_some_payload_iff (cw : CmdWord) :
    (∃ payload i, decode cw payload = .ok i) ↔
      (cw &&& 0x0000F08F = 0x00000001 ∨ cw = 0x00000002 ∨ cw = 0x00000003 ∨ cw = 0x00000004) := by
  rw [init_mask_iff]
  constructor
  · rintro ⟨payload, i, h⟩
    obtain ⟨_, _, _, _, _, _, _, rfl⟩ | ⟨hcw, _⟩ | ⟨hcw, _⟩ | ⟨hcw, _⟩ := decode_ok_cases h
    · exact .inl ⟨_, _, _, _, (decode_eq_init_iff.mp h).1⟩
    · exact .inr (.inl hcw)
    · exact .inr (.inr (.inl hcw))
    · exact .inr (.inr (.inr hcw))
  · rintro (⟨mode, variant, kb, bb, rfl⟩ | rfl | rfl | rfl)
    · exact ⟨_, _, decode_encode (i := .init mode variant kb bb (List.replicate 16 0) (List.replicate 16 0)) rfl⟩
    · exact ⟨[], _, decode_encryptWord []⟩
    · exact ⟨[], _, decode_decryptWord []⟩
    · exact ⟨[], _, decode_discardWord⟩

/-- Every instruction's word lies under the row named for it (R209). -/
theorem encodedUnderRow (i : Instr) : Laws.EncodedUnderRow.Statement i := by
  cases i with
  | init mode variant kb bb key iv => exact Laws.EncodedUnderRow.init mode variant kb bb key iv
  | encrypt msg => exact Laws.EncodedUnderRow.encrypt msg
  | decrypt msg => exact Laws.EncodedUnderRow.decrypt msg
  | discard => exact Laws.EncodedUnderRow.discard

/-- Every row fixes the whole OP field: a word under it has its pattern's (R201, R209). -/
theorem opField_of_covers {r : OpcodeRow} {cw : CmdWord} (hr : r ∈ opcodeTable) (h : r.covers cw = true) :
    opField cw = opField r.pattern := by
  have hmask : ∀ r ∈ opcodeTable, opField r.mask = BitVec.allOnes 4 := by decide
  exact extractLsb'_of_mask (hmask r hr) (beq_iff_eq.mp h)

/-- The rows of the table differ in OP (R202, R209). -/
theorem opcodeRow_eq_of_opField : ∀ r ∈ opcodeTable, ∀ r' ∈ opcodeTable,
    opField r.pattern = opField r'.pattern → r = r' := by
  decide

/-- Settles O5: INIT's mask selects OP and the reserved bits, an instruction's word lies under its row, and two rows
that cover a word have its OP. -/
theorem legalWordsAreTheTable : Obligations.LegalWordsAreTheTable := by
  refine ⟨decode_ok_some_payload_iff, fun cw payload i h => ?_, fun cw r r' hr hr' hcov hcov' => ?_⟩
  · obtain ⟨r, hr, hcov, hname⟩ := encodedUnderRow i
    rw [(encode_of_decode h).2] at hcov
    exact ⟨r, hr, hcov, hname⟩
  · exact opcodeRow_eq_of_opField r hr r' hr' ((opField_of_covers hr hcov).symm.trans (opField_of_covers hr' hcov'))

end Sys2Proof
end

section
/-! The status word every instruction leaves (R210). -/

namespace Sys2Proof.Machine

/-- Whatever an instruction does, it completes with `respond`, which writes STATUS last (R701). -/
theorem exec_status {i : Instr} {s t : State} (h : exec i s = .next t) : ∃ code, t.status = statusWord t.ctx code := by
  obtain ⟨code, _, rfl⟩ | ⟨_, _, rfl⟩ | ⟨_, rfl⟩ := exec_next_cases h
  · exact ⟨code, rfl⟩
  · exact ⟨.ok, rfl⟩
  · exact ⟨.ok, rfl⟩

/-- Settles O48: the fields of the status word do not overlap, and STATUS is written last. -/
theorem statusFields : Obligations.StatusFields :=
  ⟨fun ctx code => ⟨statusResultField_statusWord ctx code, statusInitField_statusWord ctx code,
    statusModeField_statusWord ctx code, statusReservedField_statusWord ctx code⟩, fun _ _ _ => exec_status⟩

end Sys2Proof.Machine
end

section
/-! The words of the assembler (R216 to R218). -/

namespace Sys2Proof.Machine

/-- With R216's defaults, INIT's word is the usual one of the mode (R217). -/
theorem encodeInitWord_default (m : Mode) : encodeInitWord (modeBits m) 0 16 16 = usualInitWord m := by
  cases m <;> rfl

theorem assemble_asmInitDefault (m : Mode) (key iv : Bytes) :
    assemble (asmInitDefault m key iv) = (usualInitWord m, key ++ iv) :=
  congrArg (·, key ++ iv) (encodeInitWord_default m)

/-- Settles O7: each INIT pseudo-command is the default INIT of its mode. -/
theorem assembledNamedWords : Obligations.AssembledNamedWords :=
  ⟨assemble_asmInitDefault, rfl, rfl, rfl, rfl, rfl,
    fun key iv => ⟨assemble_asmInitDefault .ecb key _, assemble_asmInitDefault .cbc key iv,
      assemble_asmInitDefault .ctr key iv, assemble_asmInitDefault .cfb key iv, assemble_asmInitDefault .ofb key iv⟩,
    fun _ => ⟨rfl, rfl, rfl⟩, rfl⟩

end Sys2Proof.Machine
end

section
/-! The rotations by their bits (R43 to R45). -/

namespace Sys2Proof.Machine

/-- Bit `t` of a left rotation is bit `(t - r) mod 64` (R43): the left shift gives the bits from `r` on, the right shift
the ones below. -/
theorem getLsbD_rotl (v : Word) {r t : Nat} (hr : r < 64) (ht : t < 64) :
    (rotl v r).getLsbD t = v.getLsbD ((t + 64 - r) % 64) := by
  by_cases htr : t < r
  · have hbit : (t + 64 - r) % 64 = 64 - r + t := by omega
    simp [rotl, htr, hbit]
  · have hbit : (t + 64 - r) % 64 = t - r := by omega
    have hout : v.getLsbD (64 - r + t) = false := BitVec.getLsbD_of_ge _ _ (by omega)
    simp [rotl, htr, ht, hbit, hout, -BitVec.getLsbD_eq_getElem]

/-- A right rotation is the complementary left one (R45). -/
theorem rotr_eq_rotl (v : Word) {r : Nat} (hr : r ≤ 64) : rotr v r = rotl v (64 - r) := by
  rw [rotr, rotl, Nat.sub_sub_self hr, BitVec.or_comm]

/-- Bit `t` of a right rotation is bit `(t + r) mod 64` (R44). -/
theorem getLsbD_rotr (v : Word) {r t : Nat} (h0 : 0 < r) (hr : r ≤ 64) (ht : t < 64) :
    (rotr v r).getLsbD t = v.getLsbD ((t + r) % 64) := by
  rw [rotr_eq_rotl v hr, getLsbD_rotl v (by omega) ht]
  congr 2
  omega

/-- A left rotation as a number: the two shifted parts do not overlap, so their OR is their sum (R43). -/
theorem rotl_eq_ofNat (v : Word) {r : Nat} (hr : r ≤ 64) :
    rotl v r = BitVec.ofNat 64 (v.toNat * 2 ^ r + v.toNat / 2 ^ (64 - r)) := by
  have hlow : v.toNat / 2 ^ (64 - r) < 2 ^ r := by
    apply Nat.div_lt_of_lt_mul
    rw [← Nat.pow_add, Nat.sub_add_cancel hr]
    exact v.isLt
  have hword : v.toNat / 2 ^ (64 - r) < 2 ^ 64 := (Nat.div_le_self _ _).trans_lt v.isLt
  apply BitVec.eq_of_toNat_eq
  rw [BitVec.toNat_ofNat, ← Nat.shiftLeft_eq, Nat.shiftLeft_add_eq_or_of_lt hlow, Nat.or_mod_two_pow,
    Nat.mod_eq_of_lt hword, ← Nat.shiftRight_eq_div_pow]
  rfl

theorem rotl_zero (r : Nat) : rotl 0 r = 0 := by
  simp [rotl]

theorem rotl_allOnes {r : Nat} (hr : r < 64) : rotl (BitVec.allOnes 64) r = BitVec.allOnes 64 := by
  apply BitVec.eq_of_getLsbD_eq
  intro t ht
  simp only [getLsbD_rotl _ hr ht, BitVec.getLsbD_allOnes, ht, Nat.mod_lt _ (show 0 < 64 by decide)]

/-- Right rotations compose (R45). -/
theorem rotr_rotr (v : Word) {a b : Nat} (ha : 0 < a) (hb : 0 < b) (hab : a + b ≤ 64) :
    rotr (rotr v a) b = rotr v (a + b) := by
  apply BitVec.eq_of_getLsbD_eq
  intro t ht
  rw [getLsbD_rotr _ hb (by omega) ht, getLsbD_rotr v ha (by omega) (Nat.mod_lt _ (by decide)),
    getLsbD_rotr v (by omega) hab ht, Nat.mod_add_mod, Nat.add_assoc, Nat.add_comm b a]

theorem rotl_xor (a b : Word) {r : Nat} (hr : r < 64) : rotl (a ^^^ b) r = rotl a r ^^^ rotl b r := by
  apply BitVec.eq_of_getLsbD_eq
  intro t ht
  simp only [BitVec.getLsbD_xor, getLsbD_rotl _ hr ht]

theorem rotl_and (a b : Word) {r : Nat} (hr : r < 64) : rotl (a &&& b) r = rotl a r &&& rotl b r := by
  apply BitVec.eq_of_getLsbD_eq
  intro t ht
  simp only [BitVec.getLsbD_and, getLsbD_rotl _ hr ht]

/-- Settles O8: the formula by the two shifted parts, the fixed points by the bit rule. -/
theorem rotateLeftMovesBits : Obligations.RotateLeftMovesBits :=
  ⟨fun v _ _ hr => ⟨rotl_eq_ofNat v hr.le, fun _ => getLsbD_rotl v hr⟩,
    fun r _ hr => ⟨rotl_zero r, rotl_allOnes hr⟩, by decide⟩

/-- Settles O9: each identity follows from the bit rules. -/
theorem rotateRightIdentities : Obligations.RotateRightIdentities :=
  ⟨fun v _ h0 hr => ⟨fun _ => getLsbD_rotr v h0 hr.le, rotr_eq_rotl v hr.le⟩,
    fun v _ _ ha hb hab => rotr_rotr v ha hb hab.le,
    fun a b _ _ hr => ⟨rotl_xor a b hr, rotl_and a b hr⟩⟩

end Sys2Proof.Machine
end

section
/-! The key-schedule constant and the z sequences (R47 to R51). -/

namespace Sys2Proof.Machine

/-- `c` has every bit but the lowest two, so XOR with it is NOT but for these (R47). -/
theorem xor_keyConst (a : Word) : a ^^^ keyConst = ~~~a ^^^ 3 := by
  have hconst : keyConst = BitVec.allOnes 64 ^^^ 3 := by decide
  rw [hconst, ← BitVec.xor_assoc, BitVec.xor_allOnes]

/-- The packed table holds the sequences as written, the leftmost digit at bit 0 (R48). -/
theorem zPacked_eq_zWritten : ∀ (j : Fin 5) (t : Nat), t < 62 → (zPacked j).getLsbD t = (zWritten j).getMsbD t := by
  decide

theorem zPacked_spare_bits : ∀ j : Fin 5, (zPacked j).getLsbD 62 = false ∧ (zPacked j).getLsbD 63 = false := by
  decide

/-- The lookup wraps around (R49). -/
theorem zbit_add_period (j : Fin 5) (t : Nat) : zbit j (t + 62) = zbit j t := by
  rw [zbit, zbit, Nat.add_mod_right]

/-- The first two sequences repeat after 31 digits (R51). -/
theorem zbit_half_period : ∀ t < 31, zbit 0 (t + 31) = zbit 0 t ∧ zbit 1 (t + 31) = zbit 1 t := by
  decide

/-- The next two sequences are the first two XOR (01)^31 (R51). -/
theorem zbit_eq_alternated : ∀ t < 62,
    zbit 2 t = (zbit 0 t ^^ decide (t % 2 = 1)) ∧ zbit 3 t = (zbit 1 t ^^ decide (t % 2 = 1)) := by
  decide

/-- The last sequence XOR (01)^31 repeats after 31 digits (R51). -/
theorem zbit_four_alternated_half_period : ∀ t < 31,
    (zbit 4 (t + 31) ^^ decide ((t + 31) % 2 = 1)) = (zbit 4 t ^^ decide (t % 2 = 1)) := by
  decide

/-- Settles O10: the periods and identities of the sequences over one period, and the lookup by its wrap-around. -/
theorem constantsAsWritten : Obligations.ConstantsAsWritten :=
  ⟨rfl, xor_keyConst, zPacked_eq_zWritten, zPacked_spare_bits, zbit_add_period, rfl, zbit_half_period,
    zbit_eq_alternated, zbit_four_alternated_half_period⟩

end Sys2Proof.Machine
end

section
/-! The steps of the key schedule in their two forms, and their bits (R302, R303). -/

namespace Sys2Proof.Machine

/-- XOR with `c` is NOT but for the lowest two bits, and the two rotations of `tmp` compose: R302's step in the form of
R303. -/
theorem keyNext_eq_complement (z : Fin 5) (i : Nat) (k2 k1 : Word) :
    keyNext z i k2 k1 = ~~~k2 ^^^ 3 ^^^ zWord z (i - 2) ^^^ rotr k1 3 ^^^ rotr k1 4 := by
  have hcombine : keyCombine k1 = rotr k1 3 ^^^ rotr k1 4 := by
    rw [keyCombine, rotr_rotr k1 (by decide) (by decide) (by decide)]
  calc keyNext z i k2 k1
      = k2 ^^^ keyConst ^^^ zWord z (i - 2) ^^^ keyCombine k1 := by unfold keyNext; ac_rfl
    _ = ~~~k2 ^^^ 3 ^^^ zWord z (i - 2) ^^^ rotr k1 3 ^^^ rotr k1 4 := by
        rw [xor_keyConst, hcombine, ← BitVec.xor_assoc]

/-- The z bit stands at the lowest bit of its word, and nothing above it (R302). -/
theorem getLsbD_zWord (j : Fin 5) (i t : Nat) : (zWord j i).getLsbD t = (zbit j i && decide (t = 0)) := by
  unfold zWord
  cases zbit j i <;> simp [BitVec.getLsbD_one]

theorem getLsbD_three : ∀ t < 64, (3 : Word).getLsbD t = decide (t < 2) := by
  decide

/-- Bit `t` of a step: the complemented constant reaches the bits from 2 on, the z bit only bit 0 (R303). -/
theorem getLsbD_keyNext (z : Fin 5) (i : Nat) (k2 k1 : Word) {t : Nat} (ht : t < 64) :
    (keyNext z i k2 k1).getLsbD t =
      (!k2.getLsbD t ^^ decide (t < 2) ^^ (zbit z (i - 2) && decide (t = 0)) ^^ (rotr k1 3).getLsbD t ^^
        (rotr k1 4).getLsbD t) := by
  simp only [keyNext_eq_complement, BitVec.getLsbD_xor, BitVec.getLsbD_not, getLsbD_zWord, getLsbD_three t ht, ht,
    decide_true, Bool.true_and]

/-- Settles O15: the first words are the key's own (R301), the others the recurrence's (R302). -/
theorem keyScheduleRecurrence : Obligations.KeyScheduleRecurrence := by
  intro key
  have hfirst : ((keyExpand .le .simon128 key)[0], (keyExpand .le .simon128 key)[1]) =
      (le64 (key.toList.take 8), le64 (key.toList.drop 8)) := by
    rw [← keyWords_eq_keyExpand, keyWords_eq_swap, blockWords_le, Prod.swap_prod_mk]
  obtain ⟨h0, h1⟩ := Prod.mk.inj hfirst
  exact ⟨h0, h1, scheduleOk_keyExpand .le .simon128 key⟩

/-- Settles O16: a step in R303's form, read at bit 0, at bit 1 and at the bits from 2 on. -/
theorem keyScheduleBitGroups : Obligations.KeyScheduleBitGroups := by
  intro o key i h ks k2 k1
  have hstep : ks[i] = keyNext 2 i k2 k1 := scheduleOk_keyExpand o .simon128 key i h
  rw [hstep]
  refine ⟨keyNext_eq_complement 2 i k2 k1, ?_, ?_, fun t hlow hhigh => ?_⟩
  · rw [getLsbD_keyNext 2 i k2 k1 (by decide)]
    simp [-BitVec.getLsbD_eq_getElem]
  · rw [getLsbD_keyNext 2 i k2 k1 (by decide)]
    simp [-BitVec.getLsbD_eq_getElem]
  · have habove : ¬ t < 2 ∧ t ≠ 0 := by omega
    rw [getLsbD_keyNext 2 i k2 k1 hhigh]
    simp [-BitVec.getLsbD_eq_getElem, habove]

end Sys2Proof.Machine
end

section
/-! The key-schedule sequencer fills the round-key memory from below (R306): before the step at KI = i the words below
`i` are KeyExpand's, whatever the memory held. -/

namespace Sys2Proof.Machine

/-- Where the index names a word of the memory, it is read (R30). -/
theorem keyAt_eq_getElem (ks : Schedule) {i : BitVec 7} {n : Nat} (hn : n < 68) (hi : i.toNat = n) :
    keyAt ks i = ks[n] := by
  subst hi
  exact dif_pos hn

/-- A write to the round-key memory changes the word at its index and no other. -/
theorem getElem_keyPut (ks : Schedule) (i : BitVec 7) (w : Word) {j : Nat} (hj : j < 68) :
    (keyPut ks i w)[j] = if i.toNat = j then w else ks[j] :=
  Vector.getElem_setIfInBounds hj

/-- Two round-key memories hold the same words below index `n`. -/
def AgreeBelow (n : Nat) (ks ks' : Schedule) : Prop :=
  ∀ (j : Nat) (hj : j < 68), j < n → ks[j] = ks'[j]

theorem AgreeBelow.eq {ks ks' : Schedule} (h : AgreeBelow 68 ks ks') : ks = ks' :=
  Vector.ext fun j hj => h j hj hj

/-- Writing the word of `ks'` at the first index in doubt takes the agreement one word further. -/
theorem AgreeBelow.after_keyPut {ks ks' : Schedule} {i : BitVec 7} {n : Nat} (h : AgreeBelow n ks ks')
    (hi : i.toNat = n) (hn : n < 68) : AgreeBelow (n + 1) (keyPut ks i ks'[n]) ks' := by
  intro j hj hjn
  rw [getElem_keyPut ks i _ hj, hi]
  split
  case isTrue heq => subst heq; rfl
  case isFalse hne => exact h j hj (by omega)

/-- The step at KI = n computes word `n` of a schedule of the recurrence from the two words before it (R302). -/
theorem AgreeBelow.after_keyMicro {v : Variant} {ks ks' : Schedule} {r : Internal} {n : Nat} (h : AgreeBelow n ks ks')
    (hok : ScheduleOk v ks') (hki : r.ki.toNat = n) (hlow : 2 ≤ n) (hhigh : n < 68) :
    AgreeBelow (n + 1) (keyMicro (variantZ v) ks r) ks' := by
  have hk2 : keyAt ks (r.ki - 2) = ks'[n - 2] :=
    (keyAt_eq_getElem ks (by omega) (by bv_omega)).trans (h (n - 2) (by omega) (by omega))
  have hk1 : keyAt ks (r.ki - 1) = ks'[n - 1] :=
    (keyAt_eq_getElem ks (by omega) (by bv_omega)).trans (h (n - 1) (by omega) (by omega))
  rw [keyMicro, hk2, hk1, hki, ← hok n ⟨hlow, hhigh⟩]
  exact h.after_keyPut hki hhigh

/-- From KI = 68 - fuel on, the loop completes a schedule of the recurrence and stops at KI = 67 (R306). -/
theorem keyLoop_eq_of_agreeBelow {v : Variant} {ks' : Schedule} (hok : ScheduleOk v ks') {fuel : Nat} :
    ∀ {n : Nat} {ks : Schedule} {r : Internal}, AgreeBelow n ks ks' → r.ki.toNat = n → 2 ≤ n → n < 68 →
      n + fuel = 68 → keyLoop (variantZ v) fuel ks r = (ks', { r with ki := 67 }) := by
  induction fuel with
  | zero => intro n ks r _ _ _ hhigh hfuel; omega
  | succ fuel ih =>
    intro n ks r h hki hlow hhigh hfuel
    have hnext := h.after_keyMicro hok hki hlow hhigh
    rw [keyLoop]
    split
    case isTrue hlast =>
      obtain rfl : 67 = n := by rw [← hki, hlast]; rfl
      rw [hnext.eq, ← hlast]
    case isFalse hmore =>
      have hnot67 : n ≠ 67 := fun hn => hmore (BitVec.eq_of_toNat_eq (hki.trans hn))
      exact ih hnext (by bv_omega) (by omega) (by omega) (by omega)

/-- Settles O18: the two writes of the key words start the agreement with KeyExpand's schedule, and the loop completes
it. -/
theorem keySequencerComputesKeyExpand : Obligations.KeySequencerComputesKeyExpand := by
  intro o v key ks r
  have hnone : AgreeBelow 0 ks (keyExpand o v key) := fun j _ hj => absurd hj (Nat.not_lt_zero j)
  have hkeyWords : AgreeBelow 2 (keyPut (keyPut ks 0 (keyWords o key).1) 1 (keyWords o key).2) (keyExpand o v key) :=
    (hnone.after_keyPut rfl (by decide)).after_keyPut rfl (by decide)
  exact keyLoop_eq_of_agreeBelow (scheduleOk_keyExpand o v key) hkeyWords rfl (by decide) (by decide) (by decide)

end Sys2Proof.Machine
end

section
/-! The Simon function and its two rounds (R400 to R403). -/

namespace Sys2Proof.Machine

/-- `f` sends a word that every rotation fixes to 0; there are two such words, so `f` is not invertible (R400). -/
theorem simonF_eq_zero_of_rotl_fixed {v : Word} (h : ∀ r < 64, rotl v r = v) : simonF v = 0 := by
  rw [simonF, h 1 (by decide), h 8 (by decide), h 2 (by decide), BitVec.and_self]
  exact BitVec.xor_self

theorem simonF_zero : simonF 0 = 0 :=
  simonF_eq_zero_of_rotl_fixed fun r _ => rotl_zero r

theorem simonF_allOnes : simonF (BitVec.allOnes 64) = 0 :=
  simonF_eq_zero_of_rotl_fixed fun _ hr => rotl_allOnes hr

/-- XOR with two words undoes itself: the Feistel cancellation of R403. -/
theorem xor_xor_self_cancel (a f k : Word) : a ^^^ f ^^^ k ^^^ f ^^^ k = a := by
  calc a ^^^ f ^^^ k ^^^ f ^^^ k = a ^^^ (f ^^^ f) ^^^ (k ^^^ k) := by ac_rfl
    _ = a := by simp only [BitVec.xor_self, BitVec.xor_zero]

@[simp] theorem roundInv_roundFwd (b : Pair) (k : Word) : roundInv (roundFwd b k) k = b :=
  Prod.ext rfl (xor_xor_self_cancel b.2 (simonF b.1) k)

@[simp] theorem roundFwd_roundInv (b : Pair) (k : Word) : roundFwd (roundInv b k) k = b :=
  Prod.ext (xor_xor_self_cancel b.1 (simonF b.2) k) rfl

/-- Each example of R401 is, read backwards, one of R402. -/
theorem roundInv_of_roundFwd {b b' : Pair} {k : Word} (h : roundFwd b k = b') : roundInv b' k = b := by
  rw [← h, roundInv_roundFwd]

/-- The corner case of R401 that R402 reads backwards. -/
theorem roundFwd_one_two_three : roundFwd (1, 2) 3 = (5, 1) := by decide

/-- Round 0 of the known-answer test (R401). -/
theorem roundFwd_kat_first :
    roundFwd (0x6373656420737265, 0x6c6c657661727420) 0x0706050403020100 =
      (0xa4c3b5e2a3dfd8f7, 0x6373656420737265) := by decide

/-- Settles O19: the formulas are the definitions; the corner cases of `f` follow from the rotations' fixed points, and
R402's examples from R401's by the inversion. -/
theorem roundsAsWritten : Obligations.RoundsAsWritten :=
  ⟨fun _ => rfl, fun _ _ _ => ⟨rfl, rfl⟩, simonF_zero, simonF_allOnes, by decide, by decide, by decide,
    by decide, by decide, by decide, roundFwd_one_two_three, roundInv_of_roundFwd roundFwd_one_two_three,
    roundFwd_kat_first, roundInv_of_roundFwd roundFwd_kat_first⟩

/-- Settles O20: the half that a round moves comes back as it was, and the other XOR cancels. -/
theorem roundsInvertEachOther : Obligations.RoundsInvertEachOther :=
  fun b k => ⟨roundInv_roundFwd b k, roundFwd_roundInv b k⟩

end Sys2Proof.Machine
end

section
/-! The two block transforms round by round, and that they invert each other (R501, R502, R506). -/

namespace Sys2Proof.Machine

/-- Folding over a list, and then back over its reverse with the inverse of each step, changes nothing. -/
theorem foldl_reverse_foldl_cancel {α β : Type} {f g : β → α → β} (hgf : ∀ b a, g (f b a) a = b) (l : List α) :
    ∀ b : β, l.reverse.foldl g (l.foldl f b) = b := by
  induction l with
  | nil => intro b; rfl
  | cons a l ih =>
    intro b
    rw [List.foldl_cons, List.reverse_cons, List.foldl_concat, ih, hgf]

@[simp] theorem decryptPair_encryptPair (ks : Schedule) (b : Pair) : decryptPair ks (encryptPair ks b) = b :=
  foldl_reverse_foldl_cancel roundInv_roundFwd ks.toList b

@[simp] theorem encryptPair_decryptPair (ks : Schedule) (b : Pair) : encryptPair ks (decryptPair ks b) = b := by
  have hcancel := foldl_reverse_foldl_cancel roundFwd_roundInv ks.toList.reverse b
  rwa [List.reverse_reverse] at hcancel

/-- Settles O21: between the two transforms the block mapping cancels, and then the rounds do. -/
theorem blockTransformsInvert : Obligations.BlockTransformsInvert := by
  intro o ks b
  constructor
  · rw [encryptBlock, decryptBlock, blockWords_wordsBlock, decryptPair_encryptPair, wordsBlock_blockWords]
  · rw [decryptBlock, encryptBlock, blockWords_wordsBlock, encryptPair_decryptPair, wordsBlock_blockWords]

/-- The pair after the first `n` forward rounds, those with KS[0], …, KS[n-1] (R501). -/
def encryptRounds (ks : Schedule) (b : Pair) (n : Nat) : Pair := (ks.toList.take n).foldl roundFwd b

/-- The pair once the inverse rounds with KS[67], …, KS[n] are done (R502). -/
def decryptRounds (ks : Schedule) (b : Pair) (n : Nat) : Pair := (ks.toList.drop n).reverse.foldl roundInv b

theorem encryptRounds_zero (ks : Schedule) (b : Pair) : encryptRounds ks b 0 = b := rfl

theorem encryptRounds_succ (ks : Schedule) (b : Pair) {n : Nat} (hn : n < 68) :
    encryptRounds ks b (n + 1) = roundFwd (encryptRounds ks b n) ks[n] := by
  have htake : ks.toList.take (n + 1) = ks.toList.take n ++ [ks[n]] := by
    rw [List.take_succ_eq_append_getElem (by simpa using hn), Vector.getElem_toList]
  rw [encryptRounds, htake, List.foldl_concat, encryptRounds]

theorem encryptRounds_all (ks : Schedule) (b : Pair) : encryptRounds ks b 68 = encryptPair ks b := by
  rw [encryptRounds, List.take_of_length_le (by simp), encryptPair]

theorem decryptRounds_none (ks : Schedule) (b : Pair) : decryptRounds ks b 68 = b := by
  rw [decryptRounds, List.drop_of_length_le (by simp)]
  rfl

theorem decryptRounds_eq_roundInv (ks : Schedule) (b : Pair) {n : Nat} (hn : n < 68) :
    decryptRounds ks b n = roundInv (decryptRounds ks b (n + 1)) ks[n] := by
  have hdrop : ks.toList.drop n = ks[n] :: ks.toList.drop (n + 1) := by
    rw [List.drop_eq_getElem_cons (by simpa using hn), Vector.getElem_toList]
  rw [decryptRounds, hdrop, List.reverse_cons, List.foldl_concat, decryptRounds]

theorem decryptRounds_zero (ks : Schedule) (b : Pair) : decryptRounds ks b 0 = decryptPair ks b := rfl

/-- Settles O22: the sequences are the partial runs of the two transforms, one round key further at each step. -/
theorem roundsUseKeysInOrder : Obligations.RoundsUseKeysInOrder :=
  fun ks b => ⟨encryptRounds ks b, decryptRounds ks b,
    encryptRounds_zero ks b, (encryptRounds_all ks b).symm, fun _ hi => encryptRounds_succ ks b hi,
    decryptRounds_none ks b, (decryptRounds_zero ks b).symm, fun _ hi => decryptRounds_eq_roundInv ks b hi⟩

end Sys2Proof.Machine
end

section
/-! The block sequencers: at RC = n the registers X and Y hold the pair the rounds have given so far, and the loops leave
KI and BI as they were (R503, R504). -/

namespace Sys2Proof.Machine

/-- The registers within a block transform: a pair in X and Y, and the round counter (R503, R504). -/
def Internal.withRound (r : Internal) (p : Pair) (rc : BitVec 7) : Internal := { r with x := p.1, y := p.2, rc := rc }

theorem loadBlock_eq_withRound (o : WordByteOrder) (b : Block) (rc : BitVec 7) (r : Internal) :
    loadBlock o b rc r = r.withRound (blockWords o b) rc := rfl

/-- The micro-step at RC = 67 is the forward loop's last (R503). -/
theorem forwardLoop_last (ks : Schedule) (fuel : Nat) (r : Internal) (p : Pair) :
    forwardLoop ks (fuel + 1) (r.withRound p 67) = r.withRound (roundFwd p (keyAt ks 67)) 67 := rfl

/-- Before RC = 67 the forward loop does one round with KS[RC] and goes on with the next (R503). -/
theorem forwardLoop_more (ks : Schedule) (fuel : Nat) (r : Internal) (p : Pair) {rc : BitVec 7} (hrc : rc ≠ 67) :
    forwardLoop ks (fuel + 1) (r.withRound p rc) =
      forwardLoop ks fuel (r.withRound (roundFwd p (keyAt ks rc)) (rc + 1)) :=
  if_neg hrc

/-- The micro-step at RC = 0 is the inverse loop's last (R504). -/
theorem inverseLoop_last (ks : Schedule) (fuel : Nat) (r : Internal) (p : Pair) :
    inverseLoop ks (fuel + 1) (r.withRound p 0) = r.withRound (roundInv p (keyAt ks 0)) 0 := rfl

/-- Above RC = 0 the inverse loop does one round with KS[RC] and goes on with the one below (R504). -/
theorem inverseLoop_more (ks : Schedule) (fuel : Nat) (r : Internal) (p : Pair) {rc : BitVec 7} (hrc : rc ≠ 0) :
    inverseLoop ks (fuel + 1) (r.withRound p rc) =
      inverseLoop ks fuel (r.withRound (roundInv p (keyAt ks rc)) (rc - 1)) :=
  if_neg hrc

/-- With the pair after `n` rounds in X and Y and RC = n, the forward loop does the rounds that remain. -/
theorem forwardLoop_encryptRounds (ks : Schedule) (b : Pair) (r : Internal) {fuel : Nat} :
    ∀ {n : Nat} {rc : BitVec 7}, rc.toNat = n → n + fuel = 67 →
      forwardLoop ks (fuel + 1) (r.withRound (encryptRounds ks b n) rc) = r.withRound (encryptPair ks b) 67 := by
  induction fuel with
  | zero =>
    intro n rc hrc hn
    obtain rfl : n = 67 := hn
    obtain rfl : rc = 67 := BitVec.eq_of_toNat_eq hrc
    rw [forwardLoop_last, keyAt_eq_getElem ks (by decide) hrc, ← encryptRounds_succ, encryptRounds_all]
  | succ fuel ih =>
    intro n rc hrc hn
    have hmore : rc ≠ 67 := by bv_omega
    rw [forwardLoop_more ks _ r _ hmore, keyAt_eq_getElem ks (by omega) hrc, ← encryptRounds_succ]
    exact ih (by bv_omega) (by omega)

/-- With the pair once the rounds above `n` are undone in X and Y and RC = n, the inverse loop undoes the others. -/
theorem inverseLoop_decryptRounds (ks : Schedule) (b : Pair) (r : Internal) {n : Nat} :
    ∀ {rc : BitVec 7}, rc.toNat = n → n < 68 →
      inverseLoop ks (n + 1) (r.withRound (decryptRounds ks b (n + 1)) rc) = r.withRound (decryptPair ks b) 0 := by
  induction n with
  | zero =>
    intro rc hrc hn
    obtain rfl : rc = 0 := BitVec.eq_of_toNat_eq hrc
    rw [inverseLoop_last, keyAt_eq_getElem ks hn hrc, ← decryptRounds_eq_roundInv, decryptRounds_zero]
  | succ n ih =>
    intro rc hrc hn
    have hmore : rc ≠ 0 := by bv_omega
    rw [inverseLoop_more ks _ r _ hmore, keyAt_eq_getElem ks hn hrc, ← decryptRounds_eq_roundInv]
    exact ih (by bv_omega) (by omega)

/-- The forward sequencer's registers are the forward loop's, from the block's words and RC = 0 (R503). -/
theorem encryptSeq_registers (o : WordByteOrder) (ks : Schedule) (b : Block) (r : Internal) :
    (encryptSeq o ks b r).2 = forwardLoop ks 68 (r.withRound (blockWords o b) 0) := by
  simp only [encryptSeq, loadBlock_eq_withRound]

/-- The inverse sequencer's registers are the inverse loop's, from the block's words and RC = 67 (R504). -/
theorem decryptSeq_registers (o : WordByteOrder) (ks : Schedule) (b : Block) (r : Internal) :
    (decryptSeq o ks b r).2 = inverseLoop ks 68 (r.withRound (blockWords o b) 67) := by
  simp only [decryptSeq, loadBlock_eq_withRound]

/-- The output block is read from X and Y as the loop leaves them (R503). -/
theorem encryptSeq_output {o : WordByteOrder} {ks : Schedule} {b : Block} {r r₀ : Internal} {p : Pair}
    {rc : BitVec 7} (h : (encryptSeq o ks b r).2 = r₀.withRound p rc) : (encryptSeq o ks b r).1 = wordsBlock o p :=
  congrArg (fun r' : Internal => wordsBlock o (r'.x, r'.y)) h

/-- The output block is read from X and Y as the loop leaves them (R504). -/
theorem decryptSeq_output {o : WordByteOrder} {ks : Schedule} {b : Block} {r r₀ : Internal} {p : Pair}
    {rc : BitVec 7} (h : (decryptSeq o ks b r).2 = r₀.withRound p rc) : (decryptSeq o ks b r).1 = wordsBlock o p :=
  congrArg (fun r' : Internal => wordsBlock o (r'.x, r'.y)) h

/-- Settles O23: the load puts the pair before the first round in X and Y, and the loop does all 68. -/
theorem forwardSequencerComputesEncryptBlock : Obligations.ForwardSequencerComputesEncryptBlock := by
  intro o ks b r
  have hrun : (encryptSeq o ks b r).2 = r.withRound (encryptPair ks (blockWords o b)) 67 := by
    calc (encryptSeq o ks b r).2
        = forwardLoop ks 68 (r.withRound (encryptRounds ks (blockWords o b) 0) 0) := by
          rw [encryptSeq_registers, encryptRounds_zero]
      _ = r.withRound (encryptPair ks (blockWords o b)) 67 :=
          forwardLoop_encryptRounds ks (blockWords o b) r (n := 0) rfl rfl
  exact ⟨encryptSeq_output hrun, hrun⟩

/-- Settles O24: the load puts the pair with no round undone in X and Y, and the loop undoes all 68. -/
theorem inverseSequencerComputesDecryptBlock : Obligations.InverseSequencerComputesDecryptBlock := by
  intro o ks b r
  have hrun : (decryptSeq o ks b r).2 = r.withRound (decryptPair ks (blockWords o b)) 0 := by
    calc (decryptSeq o ks b r).2
        = inverseLoop ks 68 (r.withRound (decryptRounds ks (blockWords o b) 68) 67) := by
          rw [decryptSeq_registers, decryptRounds_none]
      _ = r.withRound (decryptPair ks (blockWords o b)) 0 :=
          inverseLoop_decryptRounds ks (blockWords o b) r (n := 67) rfl (by decide)
  exact ⟨decryptSeq_output hrun, hrun⟩

end Sys2Proof.Machine
end

section
/-! The counter increment on the block's big-endian integer (R35, R610). -/

namespace Sys2Proof.Machine

theorem beNat_toBE (n v : Nat) : beNat (toBE n v) = v % 256 ^ n := by
  rw [beNat, toBE, List.reverse_reverse, leNat_toLE]

theorem toBE_beNat (bs : Bytes) : toBE bs.length (beNat bs) = bs := by
  rw [toBE, beNat, ← bs.length_reverse, toLE_leNat, List.reverse_reverse]

theorem beNat_toList_lt (b : Block) : beNat b.toList < 2 ^ 128 := by
  have hlt := leNat_lt b.toList.reverse
  rwa [List.length_reverse, Vector.length_toList, show 256 ^ 16 = 2 ^ 128 by decide] at hlt

/-- A block is its big-endian integer: no two blocks share one. -/
theorem beNat_toList_injective : Function.Injective fun b : Block => beNat b.toList := by
  intro b b' h
  have hbytes := congrArg (toBE 16) h
  have hb := toBE_beNat b.toList
  have hb' := toBE_beNat b'.toList
  rw [Vector.length_toList] at hb hb'
  exact Vector.toList_inj.mp (hb.symm.trans (hbytes.trans hb'))

/-- Writing an integer into a block keeps its low 128 bits. -/
theorem beNat_blockOfBytes_toBE (v : Nat) : beNat (blockOfBytes (toBE 16 v)).toList = v % 2 ^ 128 := by
  rw [toList_blockOfBytes _ (toBE_length 16 v), beNat_toBE, show 256 ^ 16 = 2 ^ 128 by decide]

theorem beNat_counterInc (ms : Block) : beNat (counterInc ms).toList = (beNat ms.toList + 1) % 2 ^ 128 := by
  rw [counterInc, beNat_blockOfBytes_toBE, Nat.mod_mod]

/-- The counter before an increment: -1 mod 2^128. -/
def counterDec (ms : Block) : Block := blockOfBytes (toBE 16 (beNat ms.toList + (2 ^ 128 - 1)))

theorem beNat_counterDec (ms : Block) :
    beNat (counterDec ms).toList = (beNat ms.toList + (2 ^ 128 - 1)) % 2 ^ 128 :=
  beNat_blockOfBytes_toBE _

theorem counterDec_counterInc (ms : Block) : counterDec (counterInc ms) = ms := by
  apply beNat_toList_injective
  have hlt := beNat_toList_lt ms
  simp only [beNat_counterDec, beNat_counterInc]
  omega

theorem counterInc_counterDec (ms : Block) : counterInc (counterDec ms) = ms := by
  apply beNat_toList_injective
  have hlt := beNat_toList_lt ms
  simp only [beNat_counterDec, beNat_counterInc]
  omega

theorem counterInc_bijective : Function.Bijective counterInc :=
  Function.bijective_iff_has_inverse.mpr ⟨counterDec, counterDec_counterInc, counterInc_counterDec⟩

/-- Byte 15 of a block has weight 1, and byte 0 weight 2^120 (R35). -/
theorem beNat_toList_eq_sum (b : Block) :
    beNat b.toList = ∑ t : Fin 16, b[t].toNat * 2 ^ (8 * (15 - t.val)) := by
  have hbytes : b.reverse.toList = b.toList.reverse := by simp
  rw [beNat, ← hbytes, leNat_toList_eq_sum]
  refine Fintype.sum_equiv Fin.revPerm _ _ fun t => ?_
  have hweight : 15 - (Fin.rev t).val = t.val := by
    simp only [Fin.val_rev]
    omega
  rw [Fin.revPerm_apply, hweight]
  congr 2
  simp [Fin.val_rev]

/-- A block whose integer is one more than that of `ms` is the counter after `ms`. -/
theorem counterInc_eq_of_beNat {ms ms' : Block} (h : (beNat ms.toList + 1) % 2 ^ 128 = beNat ms'.toList) :
    counterInc ms = ms' :=
  beNat_toList_injective ((beNat_counterInc ms).trans h)

/-- Settles O14: the increment is +1 mod 2^128 on an integer that determines the block, and -1 mod 2^128 undoes it. -/
theorem counterIsBigEndian : Obligations.CounterIsBigEndian := by
  refine ⟨fun ms => ?_, counterInc_bijective, counterInc_eq_of_beNat (by decide), counterInc_eq_of_beNat (by decide),
    counterInc_eq_of_beNat (by decide)⟩
  rw [← beNat_toList_eq_sum, ← beNat_toList_eq_sum, beNat_counterInc]

end Sys2Proof.Machine
end

section
/-! Messages and output strings as blocks (R36): cutting and joining are inverse on whole blocks. -/

namespace Sys2Proof.Machine

theorem messageBlocks_eq_map (msg : Bytes) :
    messageBlocks msg = (List.range (blockCount msg)).map (blockAt msg) := rfl

/-- The bytes of the first block of a string come first (R36). -/
theorem blockAt_cons_zero (b : Block) (bs : Bytes) : blockAt (b.toList ++ bs) 0 = b := by
  simp [blockAt, memRead]

/-- Past the first block of a string the blocks are those of the rest (R36). -/
theorem blockAt_cons_succ (b : Block) (bs : Bytes) (j : Nat) : blockAt (b.toList ++ bs) (j + 1) = blockAt bs j := by
  have hdrop : (b.toList ++ bs).drop (16 * (j + 1)) = bs.drop (16 * j) := by
    rw [Nat.mul_succ, Nat.add_comm, ← List.drop_drop, List.drop_left' (by simp)]
  rw [blockAt, blockAt, memRead, memRead, hdrop]

/-- Block `j` of an output string is the `j`-th block joined (R36). -/
theorem blockAt_joinBlocks (bs : List Block) {j : Nat} (hj : j < bs.length) : blockAt (joinBlocks bs) j = bs[j] := by
  induction bs generalizing j with
  | nil => simp at hj
  | cons b bs ih =>
    cases j with
    | zero => exact blockAt_cons_zero b _
    | succ j => exact (blockAt_cons_succ b _ j).trans (ih (by simpa using hj))

/-- Cutting an output string gives the blocks it was joined from. -/
theorem messageBlocks_joinBlocks (bs : List Block) : messageBlocks (joinBlocks bs) = bs := by
  apply List.ext_getElem (by simp)
  intro j _ hj
  simpa [messageBlocks_eq_map] using blockAt_joinBlocks bs hj

theorem joinBlocks_append (as bs : List Block) : joinBlocks (as ++ bs) = joinBlocks as ++ joinBlocks bs :=
  List.flatMap_append

/-- Joining the first `n` blocks of a message gives its first `16 n` bytes. -/
theorem joinBlocks_blockAt (msg : Bytes) {n : Nat} (h : 16 * n ≤ msg.length) :
    joinBlocks ((List.range n).map (blockAt msg)) = msg.take (16 * n) := by
  induction n with
  | zero => rfl
  | succ n ih =>
    have hblock : (blockAt msg n).toList = (msg.drop (16 * n)).take 16 :=
      toList_blockOfBytes _ (by rw [memRead_length]; omega)
    rw [List.range_succ, List.map_append, joinBlocks_append, ih (by omega), Nat.mul_succ, List.take_add, ← hblock]
    simp

/-- Joining the blocks of a message of whole blocks gives the message back. -/
theorem joinBlocks_messageBlocks {msg : Bytes} (h : WholeBlocks msg) : joinBlocks (messageBlocks msg) = msg := by
  have hcount : 16 * blockCount msg = msg.length := Nat.mul_div_cancel' (Nat.dvd_of_mod_eq_zero h)
  rw [messageBlocks_eq_map, joinBlocks_blockAt msg hcount.le, hcount, List.take_length]

end Sys2Proof.Machine
end

section
/-! ModeRun block by block: the MS each block of a message sees, and the output block it gives (R601, R908). -/

namespace Sys2Proof.Machine

/-- The MS that block `j` sees, where the blocks are `f 0`, `f 1`, … and the first sees `ms` (R601). -/
def msBefore (step : Block → Block → Block × Block) (f : Nat → Block) (ms : Block) : Nat → Block
  | 0 => ms
  | j + 1 => (step (f j) (msBefore step f ms j)).2

/-- A run over `n` blocks gives each block's output under the MS it sees, and leaves the MS after the last. -/
theorem runBlocks_range (step : Block → Block → Block × Block) (f : Nat → Block) (ms : Block) (n : Nat) :
    runBlocks step ((List.range n).map f) ms =
      ((List.range n).map fun j => (step (f j) (msBefore step f ms j)).1, msBefore step f ms n) := by
  induction n with
  | zero => rfl
  | succ n ih =>
    rw [List.range_succ, List.map_append, List.map_append, runBlocks_append, ih]
    rfl

/-- Where the new MS depends on the old MS alone, the blocks see its iterates. -/
theorem msBefore_eq_iterate {step : Block → Block → Block × Block} {next : Block → Block}
    (hnext : ∀ b ms, (step b ms).2 = next ms) (f : Nat → Block) (ms : Block) (j : Nat) :
    msBefore step f ms j = next^[j] ms := by
  induction j with
  | zero => rfl
  | succ j ih => rw [msBefore, hnext, ih, Function.iterate_succ_apply']

/-- The MS that block `j` of a message sees in a context (R601). -/
def messageMs (o : WordByteOrder) (dir : Dir) (c : Context) (msg : Bytes) : Nat → Block :=
  msBefore (contextStep o dir c) (blockAt msg) c.ms

theorem modeRun_ms (o : WordByteOrder) (dir : Dir) (c : Context) (msg : Bytes) :
    (modeRun o dir c msg).2 = messageMs o dir c msg (blockCount msg) := by
  simp only [modeRun, messageBlocks_eq_map, runBlocks_range, messageMs]

theorem blockAt_modeRun (o : WordByteOrder) (dir : Dir) (c : Context) (msg : Bytes) {j : Nat}
    (hj : j < blockCount msg) :
    blockAt (modeRun o dir c msg).1 j = (contextStep o dir c (blockAt msg j) (messageMs o dir c msg j)).1 := by
  simp only [modeRun, messageBlocks_eq_map, runBlocks_range]
  rw [blockAt_joinBlocks _ (by simpa using hj), List.getElem_map, List.getElem_range, messageMs]

/-- Output length equals input length (R36). -/
theorem modeRun_length (o : WordByteOrder) (dir : Dir) (c : Context) {msg : Bytes} (h : WholeBlocks msg) :
    (modeRun o dir c msg).1.length = msg.length := by
  simp only [modeRun, joinBlocks_length, runBlocks_length, messageBlocks_length]
  exact Nat.mul_div_cancel' (Nat.dvd_of_mod_eq_zero h)

theorem contextStep_of_mode {c : Context} {m : Mode} (h : c.cfg.mode = m) (o : WordByteOrder) (dir : Dir) :
    contextStep o dir c = modeStep (encryptBlock o c.ks) (decryptBlock o c.ks) m dir := by
  rw [contextStep, h]

end Sys2Proof.Machine
end

section
/-! ENCRYPT and DECRYPT of whole blocks in a session, in any mode: they answer what ModeRun computes (R703, R704). -/

namespace Sys2Proof.Machine

/-- ENCRYPT and DECRYPT of whole blocks in a session run the mode driver (R703, R704). -/
theorem exec_crypt_whole {s : State} {c : Context} {msg : Bytes} (dir : Dir) (hctx : s.ctx = some c)
    (hmsg : WholeBlocks msg) :
    exec (cryptInstr dir msg) s = .next (respond .ok (modeRun .le dir c msg).1
      (s.setContext { c with ms := (modeRun .le dir c msg).2 })) := by
  have hadmit : lengthAdmitted Config.params.partialPolicy msg.length = true := (lengthAdmitted_reject _).mpr hmsg
  rw [exec_cryptInstr]
  simp [cryptUnder, hctx, hadmit, withinBound, Config.params]

theorem answers_crypt {s : State} {c : Context} {msg : Bytes} (dir : Dir) (hctx : s.ctx = some c)
    (hmsg : WholeBlocks msg) :
    Answers (exec (cryptInstr dir msg) s) s (some { c with ms := (modeRun .le dir c msg).2 }) .ok
      (modeRun .le dir c msg).1 := by
  rw [exec_crypt_whole dir hctx hmsg]
  exact answers_respond _ _ rfl rfl

/-- A message in a session of a mode: each block's output and the MS it leaves are those of the mode's step (R601). -/
theorem crypt_completes {s : State} {c : Context} {m : Mode} {msg : Bytes} (dir : Dir) (hctx : s.ctx = some c)
    (hmode : c.cfg.mode = m) (hmsg : WholeBlocks msg) :
    ∃ (out : Bytes) (ms : Nat → Block),
      Answers (exec (cryptInstr dir msg) s) s (some { c with ms := ms (blockCount msg) }) .ok out ∧
      out.length = msg.length ∧ ms 0 = c.ms ∧
      ∀ j, j < blockCount msg →
        blockAt out j = (modeStep (encryptBlock .le c.ks) (decryptBlock .le c.ks) m dir (blockAt msg j) (ms j)).1 ∧
        ms (j + 1) = (modeStep (encryptBlock .le c.ks) (decryptBlock .le c.ks) m dir (blockAt msg j) (ms j)).2 := by
  refine ⟨_, messageMs .le dir c msg, ?_, modeRun_length .le dir c hmsg, rfl, fun j hj => ?_⟩
  · rw [← modeRun_ms]
    exact answers_crypt dir hctx hmsg
  · rw [← contextStep_of_mode hmode]
    exact ⟨blockAt_modeRun .le dir c msg hj, rfl⟩

end Sys2Proof.Machine
end

section
/-! The five modes through the commands: ECB keeps MS, CBC and CFB chain it, and in OFB and CTR it gives a keystream
(R602 to R612). -/

namespace Sys2Proof.Machine

/-- In ECB every block sees the context's MS (R602). -/
theorem messageMs_ecb {c : Context} (h : c.cfg.mode = .ecb) (o : WordByteOrder) (dir : Dir) (msg : Bytes) (j : Nat) :
    messageMs o dir c msg j = c.ms := by
  rw [messageMs, msBefore_eq_iterate (next := id) (contextStep_ecb_keeps_ms o dir h), Function.iterate_id, id]

/-- A message in an ECB session leaves the context as it was (R602, R603). -/
theorem ecb_crypt_completes {s : State} {c : Context} {msg : Bytes} (dir : Dir) (hctx : s.ctx = some c)
    (hmode : c.cfg.mode = .ecb) (hmsg : WholeBlocks msg) :
    ∃ out, Answers (exec (cryptInstr dir msg) s) s (some c) .ok out ∧ out.length = msg.length ∧
      ∀ j, j < blockCount msg →
        blockAt out j = (modeStep (encryptBlock .le c.ks) (decryptBlock .le c.ks) .ecb dir (blockAt msg j) c.ms).1 := by
  refine ⟨_, ?_, modeRun_length .le dir c hmsg, fun j hj => ?_⟩
  · have hanswers := answers_crypt dir hctx hmsg
    rwa [modeRun_ecb_ms .le dir msg hmode] at hanswers
  · rw [blockAt_modeRun .le dir c msg hj, messageMs_ecb hmode, contextStep_of_mode hmode]

/-- Settles O25: the ECB step is encryptBlock, and every block sees the same MS. -/
theorem ecbEncryptCompletes : Obligations.EcbEncryptCompletes :=
  fun _ _ _ hctx hmode hmsg => ecb_crypt_completes .enc hctx hmode hmsg

/-- Settles O26: the ECB step is decryptBlock, and every block sees the same MS. -/
theorem ecbDecryptCompletes : Obligations.EcbDecryptCompletes :=
  fun _ _ _ hctx hmode hmsg => ecb_crypt_completes .dec hctx hmode hmsg

/-- ENCRYPT in a session of a mode that feeds its output block back into MS (R604, R606). -/
theorem feedback_encrypt_completes {s : State} {c : Context} {m : Mode} {msg : Bytes}
    (hfeedback : ∀ enc dec p ms, (modeStep enc dec m .enc p ms).2 = (modeStep enc dec m .enc p ms).1)
    (hctx : s.ctx = some c) (hmode : c.cfg.mode = m) (hmsg : WholeBlocks msg) :
    ∃ (out : Bytes) (ms : Nat → Block),
      Answers (exec (.encrypt msg) s) s (some { c with ms := ms (blockCount msg) }) .ok out ∧
      out.length = msg.length ∧ ms 0 = c.ms ∧
      ∀ j, j < blockCount msg →
        blockAt out j = (modeStep (encryptBlock .le c.ks) (decryptBlock .le c.ks) m .enc (blockAt msg j) (ms j)).1 ∧
        ms (j + 1) = blockAt out j := by
  obtain ⟨out, ms, hanswers, hlen, hzero, hblocks⟩ := crypt_completes .enc hctx hmode hmsg
  refine ⟨out, ms, hanswers, hlen, hzero, fun j hj => ?_⟩
  obtain ⟨hout, hms⟩ := hblocks j hj
  exact ⟨hout, by rw [hms, hout, hfeedback]⟩

/-- Settles O27: CBC feeds its output block back into MS. -/
theorem cbcEncryptCompletes : Obligations.CbcEncryptCompletes :=
  fun _ _ _ hctx hmode hmsg => feedback_encrypt_completes (fun _ _ _ _ => rfl) hctx hmode hmsg

/-- Settles O28: the CBC decrypt step leaves its input block in MS. -/
theorem cbcDecryptCompletes : Obligations.CbcDecryptCompletes :=
  fun _ _ _ hctx hmode hmsg => crypt_completes .dec hctx hmode hmsg

/-- Settles O29: CFB feeds its output block back into MS. -/
theorem cfbEncryptCompletes : Obligations.CfbEncryptCompletes :=
  fun _ _ _ hctx hmode hmsg => feedback_encrypt_completes (fun _ _ _ _ => rfl) hctx hmode hmsg

/-- Settles O30: the CFB decrypt step leaves its input block in MS. -/
theorem cfbDecryptCompletes : Obligations.CfbDecryptCompletes :=
  fun _ _ _ hctx hmode hmsg => crypt_completes .dec hctx hmode hmsg

/-- A keystream step: the block is XORed with MS encrypted, and the new MS depends on the old alone (R608 to R612). -/
def keystreamStep (enc next : Block → Block) (b ms : Block) : Block × Block := (blockXor b (enc ms), next ms)

theorem contextStep_ofb {c : Context} (h : c.cfg.mode = .ofb) (o : WordByteOrder) (dir : Dir) :
    contextStep o dir c = keystreamStep (encryptBlock o c.ks) (encryptBlock o c.ks) := by
  rw [contextStep_of_mode h]
  cases dir <;> rfl

theorem contextStep_ctr {c : Context} (h : c.cfg.mode = .ctr) (o : WordByteOrder) (dir : Dir) :
    contextStep o dir c = keystreamStep (encryptBlock o c.ks) counterInc := by
  rw [contextStep_of_mode h]
  cases dir <;> rfl

/-- A message in a session with a keystream step: the keystream blocks are the iterates of MS, encrypted. -/
theorem keystream_crypt_completes {s : State} {c : Context} {msg : Bytes} {next : Block → Block} (dir : Dir)
    (hctx : s.ctx = some c) (hstep : contextStep .le dir c = keystreamStep (encryptBlock .le c.ks) next)
    (hmsg : WholeBlocks msg) :
    ∃ out, Answers (exec (cryptInstr dir msg) s) s (some { c with ms := next^[blockCount msg] c.ms }) .ok out ∧
      out.length = msg.length ∧
      ∀ j, j < blockCount msg →
        blockAt out j = blockXor (blockAt msg j) (encryptBlock .le c.ks (next^[j] c.ms)) := by
  have hms (j : Nat) : messageMs .le dir c msg j = next^[j] c.ms := by
    rw [messageMs, hstep]
    exact msBefore_eq_iterate (next := next) (fun _ _ => rfl) (blockAt msg) c.ms j
  refine ⟨_, ?_, modeRun_length .le dir c hmsg, fun j hj => ?_⟩
  · rw [← hms, ← modeRun_ms]
    exact answers_crypt dir hctx hmsg
  · rw [blockAt_modeRun .le dir c msg hj, hms, hstep]
    rfl

/-- Settles O31: in OFB the next MS is the keystream block, so the keystream runs one iterate ahead of MS. -/
theorem ofbCryptCompletes : Obligations.OfbCryptCompletes := by
  intro s c msg i hi hctx hmode hmsg
  simp only [Function.iterate_succ_apply']
  obtain rfl | rfl := hi
  · exact keystream_crypt_completes .enc hctx (contextStep_ofb hmode .le .enc) hmsg
  · exact keystream_crypt_completes .dec hctx (contextStep_ofb hmode .le .dec) hmsg

/-- Settles O32: in CTR the next MS is the counter's successor. -/
theorem ctrCryptCompletes : Obligations.CtrCryptCompletes := by
  intro s c msg i hi hctx hmode hmsg
  obtain rfl | rfl := hi
  · exact keystream_crypt_completes .enc hctx (contextStep_ctr hmode .le .enc) hmsg
  · exact keystream_crypt_completes .dec hctx (contextStep_ctr hmode .le .dec) hmsg

end Sys2Proof.Machine
end

section
/-! What decryption and the keystream undo: the round trip of every mode (R613), and P XOR C (R614). -/

namespace Sys2Proof.Machine

@[simp] theorem blockXor_blockXor_right (p q : Block) : blockXor (blockXor p q) q = p := by
  apply Vector.ext
  intro i hi
  simp

@[simp] theorem blockXor_blockXor_left (p q : Block) : blockXor p (blockXor p q) = q := by
  apply Vector.ext
  intro i hi
  simp

/-- In every mode, the decrypt step on an encrypt step's output, under the same MS, gives the input block back and
leaves the same MS (R613). -/
theorem modeStep_dec_of_enc {enc dec : Block → Block} (hinv : ∀ b, dec (enc b) = b) (m : Mode) (p ms : Block) :
    modeStep enc dec m .dec (modeStep enc dec m .enc p ms).1 ms = (p, (modeStep enc dec m .enc p ms).2) := by
  cases m with
  | ecb => simp [modeStep, ecbEncStep, ecbDecStep, hinv]
  | cbc => simp [modeStep, cbcEncStep, cbcDecStep, hinv]
  | ctr => simp [modeStep, ctrEncStep, ctrDecStep]
  | cfb => simp [modeStep, cfbEncStep, cfbDecStep]
  | ofb => simp [modeStep, ofbEncStep, ofbDecStep]

/-- A step that undoes another block by block undoes its runs. -/
theorem runBlocks_undo {f g : Block → Block → Block × Block} (hgf : ∀ b ms, g (f b ms).1 ms = (b, (f b ms).2))
    (bs : List Block) : ∀ ms, runBlocks g (runBlocks f bs ms).1 ms = (bs, (runBlocks f bs ms).2) := by
  induction bs with
  | nil => intro ms; rfl
  | cons b bs ih => intro ms; simp [runBlocks_cons, hgf, ih]

theorem modeRun_dec_of_enc (o : WordByteOrder) (c : Context) {p : Bytes} (h : WholeBlocks p) :
    modeRun o .dec c (modeRun o .enc c p).1 = (p, (modeRun o .enc c p).2) := by
  have hstep (b ms : Block) := modeStep_dec_of_enc (fun b => (blockTransformsInvert o c.ks b).1) c.cfg.mode b ms
  have hrun := runBlocks_undo (f := contextStep o .enc c) (g := contextStep o .dec c) hstep (messageBlocks p) c.ms
  simp only [modeRun, messageBlocks_joinBlocks, hrun, joinBlocks_messageBlocks h]

/-- Settles O33: the mode driver undoes its own run, and the commands answer what it computes. -/
theorem encryptThenDecryptRoundTrip : Obligations.EncryptThenDecryptRoundTrip := by
  intro s s' c p hctx hctx' hp
  have hout : WholeBlocks (modeRun .le .enc c p).1 := by rw [WholeBlocks, modeRun_length .le .enc c hp, hp]
  have hdec := answers_crypt .dec hctx' hout
  rw [modeRun_dec_of_enc .le c hp] at hdec
  exact ⟨_, _, answers_crypt .enc hctx hp, hdec⟩

/-- O34 for a session whose step is a keystream step, in both directions. -/
theorem keystream_independent_of_data {s : State} {c : Context} {p p' : Bytes} {next : Block → Block}
    (hctx : s.ctx = some c) (hstep : ∀ dir, contextStep .le dir c = keystreamStep (encryptBlock .le c.ks) next)
    (hp : WholeBlocks p) (hlen : p'.length = p.length) :
    exec (.encrypt p) s = exec (.decrypt p) s ∧
    ∃ (ctx : Option Context) (out out' : Bytes),
      Answers (exec (.encrypt p) s) s ctx .ok out ∧ Answers (exec (.encrypt p') s) s ctx .ok out' ∧
      ∀ j, j < blockCount p → blockXor (blockAt p j) (blockAt out j) = blockXor (blockAt p' j) (blockAt out' j) := by
  have hp' : WholeBlocks p' := by rw [WholeBlocks, hlen, hp]
  have hcount : blockCount p' = blockCount p := by rw [blockCount, blockCount, hlen]
  have hrun : modeRun .le .enc c p = modeRun .le .dec c p := by simp only [modeRun, hstep]
  obtain ⟨out, hanswers, -, hblocks⟩ := keystream_crypt_completes .enc hctx (hstep .enc) hp
  obtain ⟨out', hanswers', -, hblocks'⟩ := keystream_crypt_completes .enc hctx (hstep .enc) hp'
  rw [hcount] at hanswers' hblocks'
  refine ⟨?_, _, out, out', hanswers, hanswers', fun j hj => ?_⟩
  · have henc := exec_crypt_whole .enc hctx hp
    rw [hrun] at henc
    exact henc.trans (exec_crypt_whole .dec hctx hp).symm
  · rw [hblocks j hj, hblocks' j hj, blockXor_blockXor_left, blockXor_blockXor_left]

/-- Settles O34: CTR and OFB both have a keystream step. -/
theorem keystreamIndependentOfData : Obligations.KeystreamIndependentOfData := by
  intro s c p p' hctx hmode hp hlen
  obtain hmode | hmode := hmode
  · exact keystream_independent_of_data hctx (contextStep_ctr hmode .le) hp hlen
  · exact keystream_independent_of_data hctx (contextStep_ofb hmode .le) hp hlen

end Sys2Proof.Machine
end

section
/-! The streaming modes are injective in MS, so a changed IV or counter changes every output block (R616). -/

namespace Sys2Proof.Machine

theorem encryptBlock_injective (o : WordByteOrder) (ks : Schedule) : Function.Injective (encryptBlock o ks) :=
  Function.LeftInverse.injective fun b => (blockTransformsInvert o ks b).1

theorem blockXor_right_injective (p : Block) : Function.Injective (blockXor p) :=
  Function.LeftInverse.injective (blockXor_blockXor_left p)

/-- With the block fixed, a streaming mode's encrypt step maps different MS to different outputs and new MS. -/
theorem modeStep_enc_injective {enc : Block → Block} (henc : Function.Injective enc) (dec : Block → Block) {m : Mode}
    (hm : m ≠ .ecb) (p : Block) :
    (Function.Injective fun ms => (modeStep enc dec m .enc p ms).1) ∧
      (Function.Injective fun ms => (modeStep enc dec m .enc p ms).2) := by
  have hchain : Function.Injective fun ms => enc (blockXor p ms) := henc.comp (blockXor_right_injective p)
  have hstream : Function.Injective fun ms => blockXor p (enc ms) := (blockXor_right_injective p).comp henc
  cases m with
  | ecb => exact absurd rfl hm
  | cbc => exact ⟨hchain, hchain⟩
  | ctr => exact ⟨hstream, counterInc_bijective.injective⟩
  | cfb => exact ⟨hstream, hstream⟩
  | ofb => exact ⟨hstream, henc⟩

/-- Where each step is injective in MS, two runs that start with different MS never meet. -/
theorem msBefore_ne {step : Block → Block → Block × Block} (hstep : ∀ b, Function.Injective fun ms => (step b ms).2)
    (f : Nat → Block) {ms ms' : Block} (h : ms ≠ ms') (j : Nat) : msBefore step f ms j ≠ msBefore step f ms' j := by
  induction j with
  | zero => exact h
  | succ j ih => exact (hstep (f j)).ne ih

/-- Settles O35: the MS that block `j` sees differs in the two sessions, and so does the output under it. -/
theorem changedIvChangesEveryBlock : Obligations.ChangedIvChangesEveryBlock := by
  intro s s' c ms p hctx hctx' hmode hms hp
  refine ⟨_, _, _, _, answers_crypt .enc hctx hp, answers_crypt .enc hctx' hp, fun j hj => ?_⟩
  have hstep (b : Block) := modeStep_enc_injective (encryptBlock_injective .le c.ks) (decryptBlock .le c.ks) hmode b
  have hbefore : messageMs .le .enc c p j ≠ messageMs .le .enc { c with ms := ms } p j :=
    msBefore_ne (fun b => (hstep b).2) (blockAt p) hms.symm j
  rw [blockAt_modeRun .le .enc c p hj, blockAt_modeRun .le .enc _ p hj]
  exact (hstep (blockAt p j)).1.ne hbefore

end Sys2Proof.Machine
end

section
/-! The mode driver over the sequencers: BI blocks are done, and the output string holds their 16 BI bytes (R601,
R507). -/

namespace Sys2Proof.Machine

/-- The mode's step over the sequencers is the step over the block transforms, whatever the registers hold (R507). -/
theorem modeStep_sequencers (o : WordByteOrder) (dir : Dir) (c : Context) (r : Internal) :
    modeStep (fun b => (encryptSeq o c.ks b r).1) (fun b => (decryptSeq o c.ks b r).1) c.cfg.mode dir =
      contextStep o dir c := by
  have henc (b : Block) := (forwardSequencerComputesEncryptBlock o c.ks b r).1
  have hdec (b : Block) := (inverseSequencerComputesDecryptBlock o c.ks b r).1
  simp only [henc, hdec, contextStep]

/-- One block of the driver's loop: read at 16 BI, stepped, written at 16 BI (R601). -/
theorem driverLoop_succ (o : WordByteOrder) (dir : Dir) (c : Context) (msg : Bytes) (n : Nat) (ms : Block) (out : Bytes)
    (r : Internal) :
    driverLoop o dir c msg (n + 1) ms out r =
      driverLoop o dir c msg n (contextStep o dir c (blockAt msg r.bi) ms).2
        (memWrite out (16 * r.bi) (contextStep o dir c (blockAt msg r.bi) ms).1.toList) { r with bi := r.bi + 1 } := by
  rw [← modeStep_sequencers o dir c r]
  rfl

/-- A write at the end of the output string appends (R10). -/
theorem memWrite_at_end (out v : Bytes) : memWrite out out.length v = out ++ v := by
  simp [memWrite]

/-- With the output string holding the blocks before BI, the loop appends the outputs of the `n` blocks from BI on. -/
theorem driverLoop_eq_runBlocks (o : WordByteOrder) (dir : Dir) (c : Context) (msg : Bytes) (n : Nat) :
    ∀ (ms : Block) (out : Bytes) (r : Internal), out.length = 16 * r.bi →
      driverLoop o dir c msg n ms out r =
        (out ++ joinBlocks (runBlocks (contextStep o dir c) ((List.range' r.bi n).map (blockAt msg)) ms).1,
          (runBlocks (contextStep o dir c) ((List.range' r.bi n).map (blockAt msg)) ms).2,
          { r with bi := r.bi + n }) := by
  induction n with
  | zero => intro ms out r _; simp [driverLoop]
  | succ n ih =>
    intro ms out r hout
    rw [driverLoop_succ, ← hout, memWrite_at_end, ih _ _ _ (by simp [hout, Nat.mul_succ])]
    simp [List.range'_succ, runBlocks_cons, Nat.add_comm, Nat.add_left_comm]

/-- Settles O37: the loop starts at BI = 0 with an empty output string, and all the message's blocks remain. -/
theorem driverSequencerComputesModeRun : Obligations.DriverSequencerComputesModeRun := by
  intro o dir c msg r
  have hrun : driverSeq o dir c msg r =
      ((modeRun o dir c msg).1, (modeRun o dir c msg).2, { r with bi := blockCount msg }) := by
    rw [driverSeq, driverLoop_eq_runBlocks o dir c msg _ _ _ _ rfl]
    simp [modeRun, messageBlocks_eq_map, List.range_eq_range', blockCount]
  rw [hrun]
  exact ⟨rfl, rfl, rfl⟩

end Sys2Proof.Machine
end

section
/-! A command's step by what it decodes to (R700, R706), and its answer in every state (R701). -/

namespace Sys2Proof.Machine

theorem accept_eq {s : State} {e : HostEvent} {rest : List HostEvent} (h : s.inputs = e :: rest) :
    accept s = { s with inputs := rest } := by
  simp [accept, h]

theorem step_instr {s : State} {cw : CmdWord} {payload : Bytes} {rest : List HostEvent} {i : Instr}
    (hin : s.inputs = .command cw payload :: rest) (hd : decode cw payload = .ok i) : step s = exec i (accept s) := by
  simp [step, fetch_command s cw payload rest hin, fetchCommand, hd]

theorem step_illegal {s : State} {cw : CmdWord} {payload : Bytes} {rest : List HostEvent} {why : Reject}
    (hin : s.inputs = .command cw payload :: rest) (hd : decode cw payload = .illegal why) :
    step s = .next (raise .illegalCommand (accept s)) := by
  simp [step, fetch_command s cw payload rest hin, fetchCommand, hd]

/-- Settles O49: the port gives the decoded instruction, and accepting the event leaves the rest. -/
theorem stepRunsDecoded : Obligations.StepRunsDecoded := by
  intro s cw payload rest i hin hd
  rw [step_instr hin hd, accept_eq hin]

/-- Output is ENCRYPT's or DECRYPT's, and comes with OK (R701). -/
theorem Effect.crypt_of_out_ne_nil {cw : CmdWord} {payload : Bytes} {ctx ctx' : Option Context} {code : ResultCode}
    {out : Bytes} (h : Effect (decode cw payload) ctx code out ctx') (hout : out ≠ []) :
    code = .ok ∧ (cw = 0x00000002 ∨ cw = 0x00000003) := by
  cases h with
  | error _ => exact absurd rfl hout
  | init _ _ _ _ => exact absurd rfl hout
  | crypt hd _ _ => exact ⟨rfl, (decode_cryptInstr hd).1⟩
  | discard _ => exact absurd rfl hout

/-- Settles O47: a command's step completes it, and only the effect of ENCRYPT and DECRYPT has output. -/
theorem everyCommandAnswered : Obligations.EveryCommandAnswered := by
  intro s cw payload rest hin
  obtain ⟨code, out, ctx', heffect, hnext⟩ := step_command_effect cw payload rest s.ctx
  exact ⟨_, code, out, hnext s rfl hin, by simp [hin], rfl, rfl, heffect.crypt_of_out_ne_nil⟩

end Sys2Proof.Machine
end

section
/-! The status word in a session (R210): after a supported INIT (R702), and after an illegal command (R706). -/

namespace Sys2Proof.Machine

/-- The status word in a session: INIT set, the mode above it, the code in RESULT (R210). -/
theorem statusWord_some (c : Context) (code : ResultCode) :
    statusWord (some c) code =
      (0x10 : CmdWord) ||| ((modeBits c.cfg.mode).zeroExtend 32 <<< 5) ||| (resultBits code).zeroExtend 32 := by
  have hinit : (initBit (some c)).zeroExtend 32 <<< 4 = (0x10 : CmdWord) := rfl
  rw [statusWord, hinit, BitVec.or_comm 0x10, statusMode]

/-- The default field values of INIT pass its three checks, in every mode (R204, R205, R206). -/
theorem initCfg_supported (m : Mode) : initCfg (modeBits m) 0 16 16 = some (cfgFor .simon128 m) := by
  cases m <;> rfl

/-- INIT with a supported configuration completes with the context it builds (R702). -/
theorem exec_init_supported {mode : BitVec 3} {variant : BitVec 4} {kb bb : BitVec 8} {key iv : Bytes} {cfg : Cfg}
    (hp : initPayloadOk key iv = true) (hc : initCfg mode variant kb bb = some cfg) (s : State) :
    exec (.init mode variant kb bb key iv) s = .next (respond .ok [] (s.setContext
      { cfg := cfg, ks := keyExpand .le cfg.variant (blockOfBytes key), ms := blockOfBytes iv })) := by
  simp [exec, execInit, initUnder, hp, hc, Config.params]

/-- Settles O38: the three checks pass, and STATUS is the session's status word with RESULT zero. -/
theorem initBuildsContext : Obligations.InitBuildsContext := by
  intro s m key iv hkey hiv
  have hpayload : initPayloadOk key iv = true := by simp [initPayloadOk, hkey, hiv]
  rw [exec_init_supported hpayload (initCfg_supported m) s]
  refine ⟨answers_respond _ _ rfl rfl, fun t ht => ?_⟩
  cases ht
  rw [respond_status, setContext_ctx, statusWord_some]
  exact BitVec.or_zero

/-- Settles O44: the step raises ILLEGAL_COMMAND; the CBC status and the word 5 are evaluated. -/
theorem illegalCommandAnswered : Obligations.IllegalCommandAnswered := by
  intro s cw payload rest why hin hd
  refine ⟨?_, fun c hctx hmode => ?_, by decide⟩
  · rw [step_illegal hin hd, accept_eq hin]
    exact answers_raise .illegalCommand { s with inputs := rest }
  · rw [hctx, statusWord_some, hmode]
    decide

end Sys2Proof.Machine
end

section
/-! ENCRYPT and DECRYPT at the edges of their conditions: no context, no bytes, too many bytes (R703, R707, R708); and
DISCARD (R705). -/

namespace Sys2Proof.Machine

/-- Without a context ENCRYPT and DECRYPT answer NOT_INITIALIZED, whatever the message (R803). -/
theorem answers_crypt_of_none {s : State} (dir : Dir) (msg : Bytes) (hctx : s.ctx = none) :
    Answers (exec (cryptInstr dir msg) s) s none .notInitialized [] := by
  have hexec : exec (cryptInstr dir msg) s = .next (raise .notInitialized s) := by
    rw [exec_cryptInstr]
    simp [cryptUnder, hctx]
  rw [hexec, ← hctx]
  exact answers_raise .notInitialized s

/-- An empty message has no blocks (R707). -/
theorem modeRun_nil (o : WordByteOrder) (dir : Dir) (c : Context) : modeRun o dir c [] = ([], c.ms) := rfl

theorem answers_crypt_nil {s : State} {c : Context} (dir : Dir) (hctx : s.ctx = some c) :
    Answers (exec (cryptInstr dir []) s) s (some c) .ok [] := by
  have hanswers := answers_crypt (msg := []) dir hctx rfl
  rwa [modeRun_nil] at hanswers

/-- Settles O42: an empty message is a whole number of blocks, none. -/
theorem zeroLengthMessage : Obligations.ZeroLengthMessage :=
  ⟨fun _ _ hctx => ⟨answers_crypt_nil .enc hctx, answers_crypt_nil .dec hctx⟩,
    fun _ hctx => ⟨answers_crypt_of_none .enc [] hctx, answers_crypt_of_none .dec [] hctx⟩⟩

/-- Settles O43: DISCARD completes with no context, and without one ENCRYPT is NOT_INITIALIZED. -/
theorem discardEndsSession : Obligations.DiscardEndsSession := by
  intro s
  refine ⟨answers_respond .ok [] rfl rfl, statusWord_none_ok, fun t ht => ?_⟩
  cases ht
  exact ⟨rfl, rfl, rfl, rfl, fun hctx => hctx.symm, fun msg => answers_crypt_of_none .enc msg rfl⟩

/-- Every policy admits whole blocks (R6). -/
theorem lengthAdmitted_of_wholeBlocks (p : PartialPolicy) {msg : Bytes} (h : WholeBlocks msg) :
    lengthAdmitted p msg.length = true := by
  cases p with
  | reject => exact (lengthAdmitted_reject _).mpr h

theorem withinBound_eq_false {bound n : Nat} : withinBound (some bound) n = false ↔ bound < n := by
  simp [withinBound]

/-- In a session, a message of whole blocks is refused exactly where the bound does not admit it (R708). -/
theorem cryptUnder_refused_iff {P : Params} {s : State} {c : Context} {msg : Bytes} (dir : Dir) (hctx : s.ctx = some c)
    (hmsg : WholeBlocks msg) :
    cryptUnder P dir msg s = .refused (.messageTooLong msg.length) ↔
      withinBound P.maxMessageBytes msg.length = false := by
  have hadmit := lengthAdmitted_of_wholeBlocks P.partialPolicy hmsg
  cases hb : withinBound P.maxMessageBytes msg.length <;> simp [cryptUnder, hctx, hadmit, hb]

/-- Under the default parameters every instruction gives a next state (R703, R708). -/
theorem exec_eq_next (i : Instr) (s : State) : ∃ t, exec i s = .next t := by
  cases i with
  | init mode variant kb bb key iv =>
    obtain ⟨_, _, _, _, hnext⟩ := exec_init_effect mode variant kb bb key iv s.ctx
    exact ⟨_, hnext s rfl⟩
  | encrypt msg =>
    obtain ⟨_, _, _, _, hnext⟩ := exec_crypt_effect .enc msg s.ctx
    exact ⟨_, hnext s rfl⟩
  | decrypt msg =>
    obtain ⟨_, _, _, _, hnext⟩ := exec_crypt_effect .dec msg s.ctx
    exact ⟨_, hnext s rfl⟩
  | discard => exact ⟨_, rfl⟩

/-- Settles O45: the bound decides for whole blocks, and the default parameters have none. -/
theorem oversizeMessageRefused : Obligations.OversizeMessageRefused := by
  refine ⟨fun P s c dir msg bound hctx hmsg hbound => ?_, fun i s r hr => ?_⟩
  · rw [cryptUnder_refused_iff dir hctx hmsg, hbound, withinBound_eq_false]
  · obtain ⟨t, ht⟩ := exec_eq_next i s
    cases ht.symm.trans hr

end Sys2Proof.Machine
end

section
/-! What the host cannot learn of the session before: DISCARD, reset and an OK INIT each leave states that agree in all
the host can see (R702, R705, R901, R907). -/

namespace Sys2Proof.Machine

theorem SameVisible.applyReset {s s' : State} (hin : s.inputs = s'.inputs) (hresp : s.responses = s'.responses) :
    SameVisible (applyReset s) (applyReset s') :=
  ⟨rfl, rfl, hin, hresp⟩

/-- Completing with one context, code and output hides the contexts and STATUS two states held. -/
theorem SameVisible.complete {s s' : State} (code : ResultCode) (out : Bytes) (ctx : Option Context)
    (hin : s.inputs = s'.inputs) (hresp : s.responses = s'.responses) :
    SameVisible (complete code out ctx s) (complete code out ctx s') :=
  ⟨rfl, rfl, hin, by simp [hresp]⟩

theorem accept_inputs_eq {s s' : State} (h : s.inputs = s'.inputs) : (accept s).inputs = (accept s').inputs :=
  congrArg List.tail h

theorem exec_discard (s : State) : exec .discard s = .next (complete .ok [] none s) := rfl

/-- Settles O58: reset and DISCARD both leave no context and a fixed STATUS. -/
theorem noResidueAfterDiscardOrReset : Obligations.NoResidueAfterDiscardOrReset := by
  rintro n s s' t t' hin hresp ⟨rest, hreset | hdiscard⟩ ht ht'
  · cases (step_reset hreset).symm.trans ht
    cases (step_reset (hin ▸ hreset)).symm.trans ht'
    exact (SameVisible.applyReset (accept_inputs_eq hin) hresp).observe_eq n
  · have hd : decode 0x00000004 [] = .ok .discard := by decide
    cases ((step_instr hdiscard hd).trans (exec_discard _)).symm.trans ht
    cases ((step_instr (hin ▸ hdiscard) hd).trans (exec_discard _)).symm.trans ht'
    exact (SameVisible.complete .ok [] none (accept_inputs_eq hin) hresp).observe_eq n

/-- A command with OP 1 is an INIT or illegal (R212). -/
theorem decode_of_op_one {cw : CmdWord} {payload : Bytes} (hop : cw.toNat % 16 = 1) :
    (∃ why, decode cw payload = .illegal why) ∨
      ∃ mode variant kb bb key iv, decode cw payload = .ok (.init mode variant kb bb key iv) := by
  cases hd : decode cw payload with
  | illegal why => exact .inl ⟨why, rfl⟩
  | ok i =>
    obtain ⟨_, mode, variant, kb, bb, key, iv, rfl⟩ | ⟨rfl, _⟩ | ⟨rfl, _⟩ | ⟨rfl, _⟩ := decode_ok_cases hd
    · exact .inr ⟨mode, variant, kb, bb, key, iv, rfl⟩
    all_goals exact absurd hop (by decide)

/-- RESULT is not zero after an error. -/
theorem statusResultField_raise_ne_zero {code : ResultCode} (hcode : code ≠ .ok) (s : State) :
    statusResultField (raise code s).status ≠ 0 := by
  rw [raise_status, statusResultField_statusWord]
  exact resultBits_ne_zero.mpr hcode

/-- An INIT that answers OK in one state builds the same context in every state (R702). -/
theorem exec_init_ok {mode : BitVec 3} {variant : BitVec 4} {kb bb : BitVec 8} {key iv : Bytes} {s t : State}
    (h : exec (.init mode variant kb bb key iv) s = .next t) (hok : statusResultField t.status = 0) :
    ∃ c, ∀ s', exec (.init mode variant kb bb key iv) s' = .next (complete .ok [] (some c) s') := by
  obtain ⟨_, h'⟩ | ⟨_, _, h'⟩ | ⟨hp, cfg, hc, _⟩ := initUnder_cases Config.params mode variant kb bb key iv s
  · cases h'.symm.trans h
    exact absurd hok (statusResultField_raise_ne_zero (by decide) s)
  · cases h'.symm.trans h
    exact absurd hok (statusResultField_raise_ne_zero (by decide) s)
  · exact ⟨_, exec_init_supported hp hc⟩

/-- Settles O59: the command is an INIT, for an illegal one is no OK, and both states get the context it builds. -/
theorem initReplacesContextWhole : Obligations.InitReplacesContextWhole := by
  intro n s s' t t' cw payload rest hin hin' hresp hop ht ht' hok
  obtain ⟨why, hd⟩ | ⟨mode, variant, kb, bb, key, iv, hd⟩ := decode_of_op_one (payload := payload) hop
  · cases (step_illegal hin hd).symm.trans ht
    exact absurd hok (statusResultField_raise_ne_zero (by decide) (accept s))
  · obtain ⟨c, hexec⟩ := exec_init_ok ((step_instr hin hd).symm.trans ht) hok
    cases ((step_instr hin hd).trans (hexec _)).symm.trans ht
    cases ((step_instr (hin'.trans hin) hd).trans (hexec _)).symm.trans ht'
    exact (SameVisible.complete .ok [] (some c) (accept_inputs_eq hin'.symm) hresp).observe_eq n

end Sys2Proof.Machine
end

section
/-! When decode answers Illegal: by the command word's number and the payload's length (R212, R801). -/

namespace Sys2Proof

/-- INIT is illegal for a reserved bit or for the payload's length (R801 cases 2 and 3). -/
theorem decodeInit_illegal_iff {cw : CmdWord} {payload : Bytes} :
    (∃ why, decodeInit cw payload = .illegal why) ↔
      (cw.toNat / 2 ^ 7 % 2 = 1 ∨ cw.toNat / 2 ^ 12 % 16 ≠ 0) ∨ payload.length ≠ 32 := by
  simp only [decodeInit, ne_eq, ← BitVec.toNat_inj, rsv7Field_toNat, rsv15Field_toNat, BitVec.ofNat_eq_ofNat,
    BitVec.toNat_ofNat]
  split_ifs with hrsv hlen
  · exact iff_of_true ⟨_, rfl⟩ (by omega)
  · exact iff_of_false (by simp) (by omega)
  · exact iff_of_true ⟨_, rfl⟩ (by omega)

/-- Settles O4, by the branches of decode: each field it tests is a slice of the word's number. -/
theorem illegalExactlyFiveCases : Obligations.IllegalExactlyFiveCases := by
  intro cw payload
  simp only [decode, ne_eq, ← BitVec.toNat_inj, ← List.length_eq_zero_iff, opField_toNat, upperField_toNat,
    BitVec.ofNat_eq_ofNat, BitVec.toNat_ofNat]
  split_ifs with hinit henc hup hdec hup hdis hup hpay
  · rw [decodeInit_illegal_iff]
    omega
  · exact iff_of_false (by simp) (by omega)
  · exact iff_of_true ⟨_, rfl⟩ (by omega)
  · exact iff_of_false (by simp) (by omega)
  · exact iff_of_true ⟨_, rfl⟩ (by omega)
  · exact iff_of_false (by simp) (by omega)
  · exact iff_of_true ⟨_, rfl⟩ (by omega)
  · exact iff_of_true ⟨_, rfl⟩ (by omega)
  · exact iff_of_true ⟨_, rfl⟩ (by omega)

end Sys2Proof
end

section
/-! When INIT answers CONFIG_ERROR (R802), and ENCRYPT and DECRYPT NOT_INITIALIZED or LENGTH_ERROR (R803, R804). -/

namespace Sys2Proof.Machine

theorem resultBits_injective : Function.Injective resultBits := by
  intro a b
  cases a <;> cases b <;> decide

/-- An outcome answers with one code: RESULT of its STATUS tells the codes apart (R210, R211). -/
theorem Answers.code_unique {o : Host.Outcome State Fault Refusal} {s s' : State} {ctx ctx' : Option Context}
    {code code' : ResultCode} {out out' : Bytes} (h : Answers o s ctx code out) (h' : Answers o s' ctx' code' out') :
    code = code' := by
  obtain ⟨t, rfl, -, hstatus, -, -⟩ := h
  obtain ⟨t', ht, -, hstatus', -, -⟩ := h'
  cases ht
  have hresult := congrArg statusResultField (hstatus.symm.trans hstatus')
  rw [statusResultField_statusWord, statusResultField_statusWord] at hresult
  exact resultBits_injective hresult

theorem variantOfBits_eq_none_iff {variant : BitVec 4} : variantOfBits variant = none ↔ variant ≠ 0 := by
  simp [variantOfBits]

theorem modeOfBits_eq_none_iff : ∀ mode : BitVec 3, modeOfBits mode = none ↔ 4 < mode.toNat := by
  decide

/-- INIT's checks fail exactly for the causes of CONFIG_ERROR (R802). -/
theorem initCfg_eq_none_iff {mode : BitVec 3} {variant : BitVec 4} {kb bb : BitVec 8} :
    initCfg mode variant kb bb = none ↔ variant ≠ 0 ∨ kb ≠ 16 ∨ bb ≠ 16 ∨ 4 < mode.toNat := by
  rw [← variantOfBits_eq_none_iff, ← modeOfBits_eq_none_iff, initCfg]
  cases variantOfBits variant with
  | none => simp
  | some v =>
    cases v
    cases modeOfBits mode with
    | none => simp
    | some m => simp [variantKeyBytes, variantBlockBytes, or_iff_not_imp_left]

theorem answers_init_of_initCfg_none {mode : BitVec 3} {variant : BitVec 4} {kb bb : BitVec 8} {key iv : Bytes}
    (hp : initPayloadOk key iv = true) (hc : initCfg mode variant kb bb = none) (s : State) :
    Answers (exec (.init mode variant kb bb key iv) s) s s.ctx .configError [] := by
  have hexec : exec (.init mode variant kb bb key iv) s = .next (raise .configError s) := by
    simp [exec, execInit, initUnder, hp, hc]
  rw [hexec]
  exact answers_raise .configError s

/-- Settles O39: where a check fails INIT raises CONFIG_ERROR, and where all pass it answers OK. -/
theorem initConfigError : Obligations.InitConfigError := by
  intro s mode variant kb bb key iv hkey hiv
  have hpayload : initPayloadOk key iv = true := by simp [initPayloadOk, hkey, hiv]
  rw [← initCfg_eq_none_iff]
  refine ⟨fun herror => ?_, fun hc => answers_init_of_initCfg_none hpayload hc s⟩
  cases hc : initCfg mode variant kb bb with
  | none => rfl
  | some cfg =>
    rw [exec_init_supported hpayload hc s] at herror
    cases herror.code_unique (answers_respond (s := s) .ok [] rfl rfl)

/-- In a session, a message that is not a whole number of blocks is LENGTH_ERROR (R804). -/
theorem answers_crypt_of_partial {s : State} {c : Context} {msg : Bytes} (dir : Dir) (hctx : s.ctx = some c)
    (hmsg : ¬WholeBlocks msg) : Answers (exec (cryptInstr dir msg) s) s (some c) .lengthError [] := by
  have hlen : lengthAdmitted .reject msg.length = false :=
    Bool.eq_false_iff.mpr (mt (lengthAdmitted_reject _).mp hmsg)
  have hexec : exec (cryptInstr dir msg) s = .next (raise .lengthError s) := by
    rw [exec_cryptInstr]
    simp [cryptUnder, hctx, Config.params, hlen]
  rw [hexec, ← hctx]
  exact answers_raise .lengthError s

theorem answers_crypt_lengthError_iff {s : State} {c : Context} (dir : Dir) (msg : Bytes) (hctx : s.ctx = some c) :
    Answers (exec (cryptInstr dir msg) s) s (some c) .lengthError [] ↔ ¬WholeBlocks msg := by
  refine ⟨fun herror hmsg => ?_, answers_crypt_of_partial dir hctx⟩
  cases herror.code_unique (answers_crypt dir hctx hmsg)

/-- Settles O41: a whole number of blocks is answered OK, and any other length LENGTH_ERROR. -/
theorem cryptLengthError : Obligations.CryptLengthError := by
  intro s c msg hctx
  exact ⟨answers_crypt_lengthError_iff .enc msg hctx, answers_crypt_lengthError_iff .dec msg hctx,
    statusResultField_statusWord _ _⟩

/-- Settles O40: no length is looked at before the context. -/
theorem cryptNotInitialized : Obligations.CryptNotInitialized :=
  fun _ msg hctx => ⟨answers_crypt_of_none .enc msg hctx, answers_crypt_of_none .dec msg hctx, by decide⟩

end Sys2Proof.Machine
end

section
/-! What an error leaves (R805), and what the idle step and reset leave (R818, R901). -/

namespace Sys2Proof.Machine

/-- A command that completes with an error keeps the context (R805). -/
theorem Effect.ctx_eq {d : Decoded} {ctx ctx' : Option Context} {code : ResultCode} {out : Bytes}
    (h : Effect d ctx code out ctx') (hcode : code ≠ .ok) : ctx' = ctx := by
  cases h with
  | error _ => rfl
  | init _ _ _ _ => exact absurd rfl hcode
  | crypt _ _ _ => exact absurd rfl hcode
  | discard _ => exact absurd rfl hcode

/-- Settles O46: a nonzero RESULT is an error code, and the effect of an error keeps the context and gives no output. -/
theorem errorsArePrecise : Obligations.ErrorsArePrecise := by
  intro s t cw payload rest hin hstep hresult
  obtain ⟨code, out, ctx', heffect, hnext⟩ := step_command_effect cw payload rest s.ctx
  cases (hnext s rfl hin).symm.trans hstep
  rw [complete_status, statusResultField_statusWord, resultBits_ne_zero] at hresult
  have hctx := heffect.ctx_eq hresult
  have hout := heffect.out_eq_nil hresult
  subst hctx hout
  exact ⟨rfl, by simp [hin], rfl⟩

/-- Settles O50: an empty port leaves the state, and a reset event leaves the reset state's context and STATUS. -/
theorem idleAndReset : Obligations.IdleAndReset :=
  ⟨fun _ => step_idle, fun s _ hin =>
    ⟨_, step_reset hin, rfl, initFlag_of_none _ rfl, rfl, rfl, by simp [hin]⟩⟩

end Sys2Proof.Machine
end

section
/-! A message split at a block boundary: the second part continues from the MS the first one left (R908, R909). -/

namespace Sys2Proof.Machine

/-- The blocks of two messages of whole blocks, one after the other (R36). -/
theorem messageBlocks_append {m1 m2 : Bytes} (h1 : WholeBlocks m1) (h2 : WholeBlocks m2) :
    messageBlocks (m1 ++ m2) = messageBlocks m1 ++ messageBlocks m2 := by
  have hcut := messageBlocks_joinBlocks (messageBlocks m1 ++ messageBlocks m2)
  rwa [joinBlocks_append, joinBlocks_messageBlocks h1, joinBlocks_messageBlocks h2] at hcut

/-- The mode driver over two messages joined is its run over the first, then over the second in the context the first left
(R601, R908). -/
theorem modeRun_append (o : WordByteOrder) (dir : Dir) (c : Context) {m1 m2 : Bytes} (h1 : WholeBlocks m1)
    (h2 : WholeBlocks m2) :
    modeRun o dir c (m1 ++ m2) =
      ((modeRun o dir c m1).1 ++ (modeRun o dir { c with ms := (modeRun o dir c m1).2 } m2).1,
        (modeRun o dir { c with ms := (modeRun o dir c m1).2 } m2).2) := by
  simp only [modeRun, messageBlocks_append h1 h2, runBlocks_append, joinBlocks_append, contextStep]

/-- O36 for one direction: the second command starts in the context the first one wrote. -/
theorem split_crypt_completes {s : State} {c : Context} {m1 m2 : Bytes} (dir : Dir) (hctx : s.ctx = some c)
    (h1 : WholeBlocks m1) (h2 : WholeBlocks m2) :
    ∃ (t1 : State) (ctx1 ctx2 : Option Context) (out1 out2 : Bytes),
      exec (cryptInstr dir m1) s = .next t1 ∧ Answers (exec (cryptInstr dir m1) s) s ctx1 .ok out1 ∧
      Answers (exec (cryptInstr dir m2) t1) t1 ctx2 .ok out2 ∧
      Answers (exec (cryptInstr dir (m1 ++ m2)) s) s ctx2 .ok (out1 ++ out2) := by
  have hjoined : WholeBlocks (m1 ++ m2) := by rw [WholeBlocks, List.length_append]; omega
  have hwhole := answers_crypt dir hctx hjoined
  rw [modeRun_append .le dir c h1 h2] at hwhole
  exact ⟨_, _, _, _, _, exec_crypt_whole dir hctx h1, answers_crypt dir hctx h1, answers_crypt dir rfl h2, hwhole⟩

/-- Settles O36: ENCRYPT and DECRYPT are the two directions of the mode driver. -/
theorem splitMessageSameOutput : Obligations.SplitMessageSameOutput := by
  rintro s c m1 m2 cmd (rfl | rfl) hctx h1 h2
  · exact split_crypt_completes .enc hctx h1 h2
  · exact split_crypt_completes .dec hctx h1 h2

end Sys2Proof.Machine
end

section
/-! Each kind of command in a state without a context: what it answers there is what its step leaves (R902). -/

namespace Sys2Proof.Machine

/-- The next state of an outcome that answers is the one the answer describes (R701). -/
theorem Answers.status_and_ctx {s t : State} {ctx : Option Context} {code : ResultCode} {out : Bytes}
    (h : Answers (.next t) s ctx code out) : t.status = statusWord ctx code ∧ t.ctx = ctx := by
  obtain ⟨_, ht, hctx, hstatus, -, -⟩ := h
  cases ht
  exact ⟨hstatus, hctx⟩

/-- Settles O52: one case for each row of R902's table, by what the command answers without a context. -/
theorem responsesAfterReset : Obligations.ResponsesAfterReset := by
  intro s t cw payload rest hctx hin hstep
  have hexec {i : Instr} (hd : decode cw payload = .ok i) : exec i (accept s) = .next t :=
    (step_instr hin hd).symm.trans hstep
  have hcrypt (dir : Dir) (hd : decode cw payload = .ok (cryptInstr dir payload)) :
      t.status = 0x00000003 ∧ t.ctx = none :=
    (hexec hd ▸ answers_crypt_of_none (s := accept s) dir payload hctx).status_and_ctx
  refine ⟨fun m key iv hd => ?init, fun mode variant kb bb key iv hd hbad => ?badInit,
    Or.rec (hcrypt .enc) (hcrypt .dec), fun hd => ?discard, fun why hd => ?illegal⟩
  case init =>
    obtain ⟨-, hkey, hiv, -⟩ := decode_eq_init_iff.mp hd
    obtain ⟨hanswers, hstatus⟩ := initBuildsContext (accept s) m key iv hkey hiv
    exact ⟨hstatus t (hexec hd), initFlag_of_some t _ (hexec hd ▸ hanswers).status_and_ctx.2⟩
  case badInit =>
    obtain ⟨-, hkey, hiv, -⟩ := decode_eq_init_iff.mp hd
    have hanswers := (initConfigError (accept s) mode variant kb bb key iv hkey hiv).mpr hbad
    rw [hexec hd, accept_ctx, hctx] at hanswers
    exact hanswers.status_and_ctx
  case discard =>
    obtain ⟨hanswers, -, -⟩ := discardEndsSession (accept s)
    exact (hexec hd ▸ hanswers).status_and_ctx
  case illegal =>
    have hanswers := answers_raise .illegalCommand (accept s)
    rw [← step_illegal hin hd, hstep, accept_ctx, hctx] at hanswers
    exact hanswers.status_and_ctx

end Sys2Proof.Machine
end
